-- ==== Sys2Proof/Word.lean ====
section
/-! DEFINITION. The words of the hardware: frame bytes and command words. -/

namespace Sys2Proof

/-- A frame byte, a LUT entry or a stream byte: 8 bits, unsigned (R4, R30, R70). -/
abbrev Byte := BitVec 8

/-- A command word on the command port: 16 bits (R51). -/
abbrev Word := BitVec 16

end Sys2Proof
end

