-- ==== Sys2Proof/Syntax.lean ====
section
/-! DEFINITION. The three commands (R53). -/

namespace Sys2Proof

/-- The commands of the block, one constructor per row of the opcode table (R53). -/
inductive Instr where
  /-- INIT: the one-time initialization (R105). -/
  | init
  /-- SEND_ROW r, with r the 4-bit row field zero-extended to 8 bits (R54). -/
  | sendRow (r : BitVec 8)
  /-- DISPLAY_FRAME: send rows 0..7 of one frame (R115). -/
  | displayFrame
deriving DecidableEq, Repr

end Sys2Proof
end

