-- ==== Sys2Proof/WellFormed.lean ====
section
/-! DEFINITION. Which instruction terms an encoding can carry. -/

namespace Sys2Proof

/-- The row operand of SEND_ROW is the zero-extension of a 4-bit field, "a value 0..15" (R54). Rows 8..15 are well
formed: they decode, and their acceptance faults (R54, R161). -/
def Instr.wellFormed : Instr → Bool
  | .init => true
  | .sendRow r => decide (r.toNat < 16)
  | .displayFrame => true

end Sys2Proof
end

