-- ==== Sys2Proof/Decode.lean ====
section
/-! DEFINITION. The decoder, total on every 16-bit word, and the encoder (R52 to R57). -/

namespace Sys2Proof

/-- Why a word is illegal: the three conditions of R55. -/
inductive Illegal where
  /-- Bits 7..0 are not 0. -/
  | reservedByte
  /-- INIT or DISPLAY_FRAME with a row field that is not 0. -/
  | rowField
  /-- OPC is 0x0 or 0x4..0xF. -/
  | reservedOpcode
deriving DecidableEq, Repr

/-- Field OPC of a command word, bits 15..12 (R52). -/
def opcField (w : Word) : BitVec 4 := w.extractLsb' 12 4

/-- Field R of a command word, bits 11..8 (R52). -/
def rowField (w : Word) : BitVec 4 := w.extractLsb' 8 4

/-- Field B of a command word, bits 7..0 (R52). -/
def reservedField (w : Word) : BitVec 8 := w.extractLsb' 0 8

/-- The decoder of R56; `Illegal` carries which condition of R55 makes the word illegal. -/
def decode (w : Word) : Except Illegal Instr :=
  if reservedField w ≠ 0 then .error .reservedByte
  else if opcField w = 0x1 then
    if rowField w = 0 then .ok .init else .error .rowField
  else if opcField w = 0x2 then .ok (.sendRow ((rowField w).zeroExtend 8))
  else if opcField w = 0x3 then
    if rowField w = 0 then .ok .displayFrame else .error .rowField
  else .error .reservedOpcode

/-- The encoder of R57: INIT = 0x1000, SEND_ROW r = 0x2000 | (r << 8), DISPLAY_FRAME = 0x3000. -/
def encode : Instr → Word
  | .init => 0x1000
  | .sendRow r => 0x2000 ||| (r.zeroExtend 16 <<< 8)
  | .displayFrame => 0x3000

/-- The instruction the decoder reads from a table word. Every command is one 16-bit word (R51), so a number with a bit
above bit 15 is no command. Log 23. -/
def decodeTableWord (nbits w : Nat) : Option Instr :=
  let v := w % 2 ^ nbits
  if v < 2 ^ 16 then
    match decode (BitVec.ofNat 16 v) with
    | .ok i => some i
    | .error _ => none
  else none

end Sys2Proof
end

