-- ==== Sys2Proof/Config.lean ====
section
/-! DEFINITION. What an implementation fixes: the open parameters of R3, which have no body, so that nothing can be proved of
their values but what their types say; the fixed numbers of R2; and the free values the spec calls "any value". -/

namespace Sys2Proof

/-- Which transition of a latch pulse commits (R24). -/
inductive LatchEdge where
  | falling
  | rising
deriving DecidableEq, Repr, Inhabited

/-- A non-decreasing table from 0..255 to 0..255, behind GAMMA (R70, R71). It has no body: the spec gives no entry
values. Log 5 (DESIGN CHOICE of the form, safe). -/
opaque Config.gammaTable : Fin 256 →o Fin 256

/-- An index x in 0..254 where GAMMA is flat, GAMMA[x] = GAMMA[x + 1] (R72: some such x exists, which is not said).
Log 5. -/
opaque Config.gammaFlat : Fin 255

/-- GAMMA, the gamma lookup table (R70). Every table that R71 and R72 allow is `Config.gamma` for some
`Config.gammaTable` and `Config.gammaFlat`, and every `Config.gamma` is one of those tables. Log 5. -/
def Config.gamma (x : Byte) : Byte :=
  let i : Fin 256 := if x.toNat = Config.gammaFlat.val + 1 then Config.gammaFlat.castSucc else x.toFin
  BitVec.ofFin (Config.gammaTable i)

/-- INIT_FRAME, what FB holds at reset (R3, R149); byte a is the byte at address a. Log 6. -/
opaque Config.initFrame : Vector Byte 192

/-- LATCH_EDGE (R3, R24). Log 7. -/
opaque Config.latchEdge : LatchEdge

/-- T0, the first deadline of the display task, in seconds (R3, R141). Log 8. -/
opaque Config.t0 : Rat

/-- ROW_PERIOD = 1/(8 × 60) s (R139). -/
def Config.rowPeriod : Rat := 1 / 480

/-- The free bits of the observer: `freeBit n k` is the k-th bit of the n-th draw (R22, R24, R27, "any value").
Log 9. -/
opaque Config.freeBit : Nat → Nat → Bool

/-- n free bits of one draw, from an offset on (log 9). -/
@[irreducible] def Config.freeBits (n draw offset : Nat) : Vector Bool n :=
  Vector.ofFn fun k : Fin n => Config.freeBit draw (offset + k.val)

/-- What SR holds after a reset in the middle of a trace (R182, "any value"), by draw. Log 10. -/
opaque Config.freeSamples : Nat → List Bool

/-- SCRATCH at power-on (R135, "any value"). Log 12. -/
opaque Config.scratchPowerOn : Vector Byte 192

/-- RESET_HOLD_MS (R2). -/
def Config.resetHoldMs : Nat := 100

/-- INIT_BYTES: how many bytes of ones INIT sends (R2, R59). -/
def Config.initBytes : Nat := 18

/-- How many stream bytes go out before the previous row is deactivated: the bytes of columns 7, 6 and 5
(DEACT_AFTER_COL = 5, R2). -/
def Config.deactAfterBytes : Nat := 9

/-- MARKER, the framing marker of the receiver (R3, R136). -/
def Config.marker : Byte := 0xFF

end Sys2Proof
end

