-- ==== Sys2Proof/Machine/State.lean ====
section
/-! DEFINITION. The state of the machine, as plain data: the block (R21), the observer of the downstream chip (R22), the
host's tasks (R130 to R141) and the list of turns still to be taken; and the state after reset (R20). -/

namespace Sys2Proof.Machine

/-- The 13 output lines (R10). -/
inductive Line where
  /-- The data line. -/
  | sda
  /-- The clock line. -/
  | sck
  /-- The latch line. -/
  | lat
  /-- The standby line. -/
  | sb
  /-- The reset line of the downstream chip. -/
  | rst
  /-- Row-select line C_r. -/
  | row (r : Fin 8)
deriving DecidableEq, Repr

/-- LINES, the level of every line (R10); `true` is level 1, "high" (R7). -/
structure Lines where
  sda : Bool
  sck : Bool
  lat : Bool
  sb : Bool
  rst : Bool
  rows : Vector Bool 8
deriving DecidableEq, Repr

/-- An event (R6). -/
inductive Event where
  /-- Line l is driven to level v. -/
  | set (l : Line) (v : Bool)
  /-- The block waits at least ms milliseconds. -/
  | delay (ms : Nat)
deriving DecidableEq, Repr

/-- FSM (R12). -/
inductive Fsm where
  | uninit
  | bankInit
  | faulted
  | rowActive (r : Fin 8)
deriving DecidableEq, Repr

/-- The fault causes (R160). -/
inductive FaultCause where
  /-- No fault since reset. -/
  | noFault
  /-- SEND_ROW with r in 8..15, after INIT. -/
  | rowRange
  /-- An illegal word. -/
  | illegalCommand
  /-- SEND_ROW or DISPLAY_FRAME at UNINIT. -/
  | notInitialized
  /-- INIT when FSM is not UNINIT. -/
  | reinit
deriving DecidableEq, Repr

/-- FAULT (R16): the cause, and the command word whose acceptance raised it. -/
structure FaultRecord where
  cause : FaultCause
  info : Word
deriving DecidableEq, Repr

/-- FB as the cells that differ from what an unlisted address reads as (R30, log 6), addresses strictly rising. -/
structure Memory where
  cells : List Host.Cell
deriving DecidableEq, Repr

/-- The state of the block: the tuple of R21. -/
structure Block where
  lines : Lines
  fsm : Fsm
  fault : FaultRecord
  /-- PEND: the events of the accepted command still to be performed (R14). -/
  pend : List Event
  /-- POST: the FSM value to take when PEND becomes empty (R14). -/
  post : Fsm
  fb : Memory
deriving DecidableEq, Repr

/-- The observer of the downstream chip (R22). A bank is held in sample order: position 0 is the oldest bit, which is the
MSB of byte 0 (R26). -/
structure Observer where
  /-- SR: every bit sampled since reset, oldest first. -/
  sr : List Bool
  out0 : Vector Bool 144
  out1 : Vector Bool 192
  /-- The model's own counter of the draws of free bits (log 9). -/
  draws : Nat
deriving DecidableEq, Repr

/-- Where the display task stands (R138, log 4): between activations, or held inside one until its word is accepted. -/
inductive TaskPhase where
  | dormant
  | held
deriving DecidableEq, Repr

/-- The host: its command port, its receiver and its display task (45_host_environment.md). -/
structure HostState where
  /-- The word presented on the command port and not yet accepted (R100). -/
  port : Option Word
  /-- The words host code has still to present, in order (log 3). -/
  cmds : List Word
  /-- SCRATCH (R135). -/
  scratch : Vector Byte 192
  /-- CURSOR (R135). -/
  cursor : Fin 193
  /-- IDX (R138). -/
  idx : Fin 8
  /-- DL, in seconds (R138). -/
  dl : Rat
  phase : TaskPhase
deriving DecidableEq, Repr

/-- Which agent acts next (R101 "interleave in any order", R130, log 2). -/
inductive Turn where
  /-- The block acts: an event step when busy, an acceptance when a word waits (R100, R101). -/
  | block
  /-- Host code presents its next word (R100). -/
  | present
  /-- The receive task gets byte x (R136). -/
  | receive (x : Byte)
  /-- The display task runs (R138). -/
  | display
  /-- The startup code resets the block and issues INIT (R130, R183 steps 2 and 3). -/
  | startup
  /-- The startup code starts the display task and enables the receive task (R183 step 4). -/
  | startTasks
  /-- The block is reset (R180, R182). -/
  | reset
deriving DecidableEq, Repr

/-- The whole state. -/
structure State where
  block : Block
  chip : Observer
  host : HostState
  /-- The turns still to be taken, the next one first; when none is left the block acts (log 2). -/
  turns : List Turn
deriving DecidableEq, Repr

/-- The reasons a step can stop with a fault. The block's own faults are no such stop: they are states (R162). -/
inductive Fault where
  /-- Raised by the receive task when a byte that is not the marker arrives with CURSOR = 192: SCRATCH has no such
  place. No run from reset reaches it (R137). Safe: the model stops. Log 18. -/
  | cursorPastFrame
deriving DecidableEq, Repr

/-- The reasons for a refusal. -/
inductive Refusal where
  /-- Raised by an arm of exec whose instruction has no meaning yet; no arm does. Safe. -/
  | notModelled (mnemonic : String)
  /-- Raised by the colour scaling on a NaN or infinite scalar, which R145 puts outside the rule ("a model refuses it");
  no step raises it. Safe. Log 21. -/
  | nonFiniteScalar
deriving DecidableEq, Repr

/-- What a step or a meaning answers. -/
abbrev Result := Host.Outcome State Fault Refusal

/-- The lines after reset: LAT and SB high, everything else low, RST holding the downstream chip in reset (R20). -/
def Lines.reset : Lines :=
  { sda := false, sck := false, lat := true, sb := true, rst := false, rows := Vector.replicate 8 false }

/-- The block after reset (R20, R180); FB lists nothing, so every address reads as INIT_FRAME. -/
def Block.reset : Block :=
  { lines := Lines.reset
    fsm := .uninit
    fault := { cause := .noFault, info := 0 }
    pend := []
    post := .uninit
    fb := { cells := [] } }

/-- The observer at power-on: SR empty, both banks any value (R22, log 9). -/
def Observer.reset : Observer :=
  { sr := []
    out0 := Config.freeBits 144 0 0
    out1 := Config.freeBits 192 0 144
    draws := 1 }

/-- The host at power-on (R135, R141; nothing presented, R181). -/
def HostState.reset : HostState :=
  { port := none
    cmds := []
    scratch := Config.scratchPowerOn
    cursor := 0
    idx := 0
    dl := Config.t0
    phase := .dormant }

/-- The machine right after reset (R20, R22, R135, R141, R181). -/
def State.reset : State :=
  { block := Block.reset
    chip := Observer.reset
    host := HostState.reset
    turns := [] }

end Sys2Proof.Machine
end

