-- ==== Sys2Proof/Machine/Ops.lean ====
section
/-! DEFINITION. The shared operations: reading and writing a line, reading and writing the frame buffer, the acceptance of a
command with its checks (R100, R163), fault entry (R162), and reset, the one way out of a fault (R164, R180). -/

namespace Sys2Proof.Machine

/-! ### Lines -/

/-- `LINES[l]` (R5). -/
def Lines.get (ls : Lines) : Line → Bool
  | .sda => ls.sda
  | .sck => ls.sck
  | .lat => ls.lat
  | .sb => ls.sb
  | .rst => ls.rst
  | .row r => ls.rows[r]

/-- `LINES[l] <- v` (R5): no other line is written (R11). -/
def Lines.set (ls : Lines) (l : Line) (v : Bool) : Lines :=
  match l with
  | .sda => { ls with sda := v }
  | .sck => { ls with sck := v }
  | .lat => { ls with lat := v }
  | .sb => { ls with sb := v }
  | .rst => { ls with rst := v }
  | .row r => { ls with rows := ls.rows.set r v }

/-- What an event does to the lines (R6, R101): a delay changes none. -/
def Lines.perform (ls : Lines) : Event → Lines
  | .set l v => ls.set l v
  | .delay _ => ls

/-- The lines after a list of events, performed in order (R6, R184). -/
def Lines.performAll (ls : Lines) (es : List Event) : Lines :=
  es.foldl Lines.perform ls

/-! ### The frame buffer -/

/-- What an address that no cell lists reads as: INIT_FRAME (R20, R41 "or INIT_FRAME when there was none"). Log 6. -/
def Memory.unlisted (a : Fin 192) : Byte := Config.initFrame[a]

/-- The byte listed for an address, if one is. -/
def Memory.lookup (a : Nat) : List Host.Cell → Option Byte
  | [] => none
  | c :: cs => if c.1 = a then some c.2 else Memory.lookup a cs

/-- `FB[a]`; an address is 0..191 by its type (R30, R37). -/
def Memory.read (m : Memory) (a : Fin 192) : Byte :=
  (Memory.lookup a.val m.cells).getD (Memory.unlisted a)

/-- `MemRead(a, n)`: the n bytes at a..a+n-1, byte a first, in one atomic action (R5, R35). -/
@[irreducible] def Memory.memRead (m : Memory) (a n : Nat) (h : a + n ≤ 192) : Vector Byte n :=
  Vector.ofFn fun k : Fin n => m.read ⟨a + k.val, by omega⟩

/-- The 192 bytes of the frame, byte 0 first. -/
@[irreducible] def Memory.bytes (m : Memory) : Vector Byte 192 :=
  Vector.ofFn m.read

/-- The memory that holds a frame: a cell for each byte that differs from what its address reads as unlisted. -/
@[irreducible] def Memory.ofBytes (v : Vector Byte 192) : Memory :=
  { cells := (List.finRange 192).filterMap fun a =>
      if v[a] = Memory.unlisted a then none else some (a.val, v[a]) }

/-- `MemWrite(a, n, v)`, the host's (R5): the n bytes at a..a+n-1 become v. -/
def Memory.memWrite (m : Memory) (a n : Nat) (v : Vector Byte n) (_h : a + n ≤ 192) : Memory :=
  Memory.ofBytes (Vector.ofFn fun k : Fin 192 =>
    if h : a ≤ k.val ∧ k.val < a + n then v[k.val - a]'(by omega) else m.read k)

/-- A listed cell is one the canonical form allows: its address exists, and its byte is not what the address reads as
unlisted. -/
def Memory.cellWf (c : Host.Cell) : Bool :=
  if h : c.1 < 192 then decide (c.2 ≠ Memory.unlisted ⟨c.1, h⟩) else false

/-- The canonical form: addresses strictly rising, every cell allowed. Log 6. -/
def Memory.wf (m : Memory) : Bool :=
  decide (m.cells.Pairwise fun c d => c.1 < d.1) && m.cells.all Memory.cellWf

/-! ### The sequencer's status -/

/-- The block is idle: no event is pending (R14). -/
def Block.idle (b : Block) : Bool := b.pend.isEmpty

/-- A command can be accepted: the block is idle and not FAULTED (R14, R100). -/
def Block.canAccept (b : Block) : Bool := b.idle && decide (b.fsm ≠ .faulted)

/-! ### Faults and acceptance -/

/-- `CHECK(d, FSM)` (R163): the encoding wins over the state, the state over the operand. -/
def check (d : Except Illegal Instr) (fsm : Fsm) : Option FaultCause :=
  match d with
  | .error _ => some .illegalCommand
  | .ok i =>
    if i = .init ∧ fsm ≠ .uninit then some .reinit
    else if i ≠ .init ∧ fsm = .uninit then some .notInitialized
    else
      match i with
      | .sendRow r => if r.toNat > 7 then some .rowRange else none
      | _ => none

/-- Fault entry, `raise f(info = w)` (R162): the record, FSM and PEND in one atomic action; no line is written, FB is not
read, POST is left as it is (log 15). -/
def raise (f : FaultCause) (w : Word) (s : State) : State :=
  { s with block := { s.block with fault := { cause := f, info := w }, fsm := .faulted, pend := [] } }

/-- The waiting word leaves the port: the block has taken it (R100). -/
def takeWord (s : State) : State :=
  { s with host := { s.host with port := none } }

/-- PEND and POST take the trace of an accepted command (R100). -/
def startTrace (trace : List Event) (post : Fsm) (s : State) : State :=
  { s with block := { s.block with pend := trace, post := post } }

/-- Acceptance of the command i, `ACCEPT(w)` (R100), with `trace` its TRACE, which reads FB here and nowhere else (R103).
A fault that a procedure of the trace raises is raised at acceptance (42_line_primitives.md). The word is `encode i`
(log 16). A busy or FAULTED block does not accept: the host is held and nothing changes (R100, R164, log 17). -/
def accept (i : Instr) (trace : Memory → Except FaultCause (List Event × Fsm)) (s : State) : Result :=
  if s.block.canAccept then
    match check (.ok i) s.block.fsm with
    | some f => .next (raise f (encode i) (takeWord s))
    | none =>
      match trace s.block.fb with
      | .error f => .next (raise f (encode i) (takeWord s))
      | .ok (es, post) => .next (startTrace es post (takeWord s))
  else .next s

/-- Acceptance of an illegal word (R55, R161): CHECK answers ILLEGAL_COMMAND, and nothing is read or performed. -/
def acceptIllegal (why : Illegal) (w : Word) (s : State) : Result :=
  if s.block.canAccept then
    match check (.error why) s.block.fsm with
    | some f => .next (raise f w (takeWord s))
    | none => .next s
  else .next s

/-! ### Reset, the one way out of a fault -/

/-- What a reset leaves of the observer (R22, R180): SR empty; after a reset in the middle of a trace SR is any value
(R182, log 10). OUT0 and OUT1 become any value because RST is low after it (R27; `settle`). -/
def Observer.afterReset (o : Observer) (busy : Bool) : Observer :=
  { o with sr := if busy then Config.freeSamples o.draws else [], draws := o.draws + 1 }

/-- Reset of the block (R180): every piece of its state at the value of R20, at once, whatever it was; the rest of PEND is
abandoned (R182). The host's own state is not the block's and stays (log 13). -/
def resetBlock (s : State) : State :=
  { s with block := Block.reset, chip := s.chip.afterReset (!s.block.idle) }

/-! ### Outcomes -/

/-- An outcome with its next state, if it has one, taken on by `f`. -/
def mapNext (f : State → State) : Result → Result
  | .next s => .next (f s)
  | .fault r => .fault r
  | .refused r => .refused r

end Sys2Proof.Machine
end

