-- ==== Sys2Proof/Machine/Operands.lean ====
section
/-! DEFINITION. Operand forms: the row index and the row before it (R54, R109), the frame layout (R31) and the pixel view
(R32). -/

namespace Sys2Proof.Machine

/-- The colour channels, in address order (R31). -/
inductive Channel where
  | r
  | g
  | b
deriving DecidableEq, Repr

/-- The number of a channel: 0 = R, 1 = G, 2 = B (R31). -/
def Channel.toFin : Channel → Fin 3
  | .r => 0
  | .g => 1
  | .b => 2

/-- The channel of a number. -/
def Channel.ofFin : Fin 3 → Channel
  | 0 => .r
  | 1 => .g
  | 2 => .b

/-- A colour: three 8-bit channels (R73, R144). -/
structure Color where
  r : Byte
  g : Byte
  b : Byte
deriving DecidableEq, Repr

/-- One channel of a colour. -/
def Color.channel (c : Color) : Channel → Byte
  | .r => c.r
  | .g => c.g
  | .b => c.b

/-- The row index of SEND_ROW as one of the eight rows, where it is in range (R107). -/
def rowIndex (r : BitVec 8) : Option (Fin 8) :=
  if h : r.toNat < 8 then some ⟨r.toNat, h⟩ else none

/-- The previous row of row r: `(r + 7) mod 8`, computed from r alone (R109). -/
def prevRow (r : Fin 8) : Fin 8 := ⟨(r.val + 7) % 8, Nat.mod_lt _ (by decide)⟩

/-- The row after row r in cyclic order, `(r + 1) mod 8` (R110, R138). -/
def nextRow (r : Fin 8) : Fin 8 := ⟨(r.val + 1) % 8, Nat.mod_lt _ (by decide)⟩

/-- The address of channel ch of the pixel at (row, col): `3 * (8 * row + col) + ch` (R31). -/
def frameAddr (row col : Fin 8) (ch : Channel) : Fin 192 :=
  ⟨3 * (8 * row.val + col.val) + ch.toFin.val, by omega⟩

/-- The row of an address: `(a / 3) / 8` (R31). -/
def addrRow (a : Fin 192) : Fin 8 := ⟨a.val / 3 / 8, by omega⟩

/-- The column of an address: `(a / 3) mod 8` (R31). -/
def addrCol (a : Fin 192) : Fin 8 := ⟨a.val / 3 % 8, by omega⟩

/-- The channel of an address: `a mod 3` (R31). -/
def addrChannel (a : Fin 192) : Channel := Channel.ofFin ⟨a.val % 3, by omega⟩

/-- `pixel(row, col)` (R32). -/
def Memory.pixel (m : Memory) (row col : Fin 8) : Color :=
  { r := m.read (frameAddr row col .r)
    g := m.read (frameAddr row col .g)
    b := m.read (frameAddr row col .b) }

/-- The row read of SEND_ROW r, `MemRead(24 * r, 24)` (R35). -/
def Memory.rowBytes (m : Memory) (r : Fin 8) : Vector Byte 24 :=
  m.memRead (24 * r.val) 24 (by omega)

/-- The frame read of DISPLAY_FRAME, `MemRead(0, 192)` (R35). -/
def Memory.frameBytes (m : Memory) : Vector Byte 192 :=
  m.memRead 0 192 (by omega)

/-- Bytes 24 r .. 24 r + 23 of a frame that has been read (R115). -/
def rowOfFrame (f : Vector Byte 192) (r : Fin 8) : Vector Byte 24 :=
  Vector.ofFn fun k : Fin 24 => f[24 * r.val + k.val]'(by omega)

end Sys2Proof.Machine
end

