-- ==== Sys2Proof/Machine/Gamma.lean ====
section
/-! DEFINITION. The gamma transform (40_gamma_lut.md). The table is an argument (R3); the commands pass `Config.gamma`. -/

namespace Sys2Proof.Machine

/-- GAMMA_CORRECT (R73): each channel through the table, independently. -/
def gammaCorrect (g : Byte → Byte) (c : Color) : Color :=
  { r := g c.r, g := g c.g, b := g c.b }

/-- GAMMA_TEST (R76), the spec's table for vectors only, not the hardware's: `(x * x) / 255`. -/
def gammaTest (x : Byte) : Byte := BitVec.ofNat 8 (x.toNat * x.toNat / 255)

end Sys2Proof.Machine
end

