-- ==== Sys2Proof/Machine/LinePrimitives.lean ====
section
/-! DEFINITION. The line primitives (42_line_primitives.md). Each gives a list of events. -/

namespace Sys2Proof.Machine

/-- SET_LINE (R90). -/
def setLine (l : Line) (v : Bool) : List Event := [.set l v]

/-- PULSE_CLOCK (R91): low, high, low. -/
def pulseClock : List Event := [.set .sck false, .set .sck true, .set .sck false]

/-- PULSE_LATCH (R92): high, low, high. -/
def pulseLatch : List Event := [.set .lat true, .set .lat false, .set .lat true]

/-- ROW_SELECT (R93), for any integer a caller computes: ROW_RANGE outside 0..7. -/
def rowSelect (r : Int) (v : Bool) : Except FaultCause (List Event) :=
  if h : 0 ≤ r ∧ r ≤ 7 then .ok [.set (.row ⟨r.toNat, by omega⟩) v] else .error .rowRange

/-- DELAY (R94). -/
def delay (ms : Nat) : List Event := [.delay ms]

end Sys2Proof.Machine
end

