-- ==== Sys2Proof/Machine/Serializer.lean ====
section
/-! DEFINITION. The pixel-to-serial serializer (41_serializer.md). -/

namespace Sys2Proof.Machine

/-- SEND_BIT (R80): the data line, then a clock pulse; the bit cell of R60. -/
def sendBit (b : Bool) : List Event := Event.set .sda b :: pulseClock

/-- The bits of a byte, most significant first (R81). -/
def byteBits (x : Byte) : List Bool :=
  [x.getLsbD 7, x.getLsbD 6, x.getLsbD 5, x.getLsbD 4, x.getLsbD 3, x.getLsbD 2, x.getLsbD 1, x.getLsbD 0]

/-- SEND_BYTE (R81): eight bit cells, MSB first. -/
def sendByte (x : Byte) : List Event := (byteBits x).flatMap sendBit

/-- The events of a list of SEND_BYTE calls, in list order. -/
def sendBytes (xs : List Byte) : List Event := xs.flatMap sendByte

/-- The gamma-corrected blue, green and red of column c of a row p, in send order (R82). -/
def columnBytes (g : Byte → Byte) (p : Vector Byte 24) (c : Fin 8) : List Byte :=
  let k := gammaCorrect g
    { r := p[3 * c.val]'(by omega), g := p[3 * c.val + 1]'(by omega), b := p[3 * c.val + 2]'(by omega) }
  [k.b, k.g, k.r]

/-- ROW_STREAM (R82): columns 7 down to 0. -/
def rowStream (g : Byte → Byte) (p : Vector Byte 24) : List Byte :=
  (List.finRange 8).reverse.flatMap (columnBytes g p)

/-- INIT_STREAM (R84): 18 bytes of ones. -/
def initStream : List Event := sendBytes (List.replicate Config.initBytes 0xFF)

end Sys2Proof.Machine
end

