-- ==== Sys2Proof/Machine/Init.lean ====
section
/-! DEFINITION. INIT (R105, R106). -/

namespace Sys2Proof.Machine

/-- The trace of INIT (R105): the reset hold, the release of RST, and the bank initialization with SB low. -/
def initTrace : List Event :=
  delay Config.resetHoldMs
    ++ setLine .rst true
    ++ setLine .sb false
    ++ initStream
    ++ pulseLatch
    ++ setLine .sb true

/-- INIT (R105): reads neither FB nor GAMMA. At an FSM other than UNINIT its acceptance raises REINIT (R106). -/
def execInit (s : State) : Result :=
  accept .init (fun _ => .ok (initTrace, .bankInit)) s

end Sys2Proof.Machine
end

