-- ==== Sys2Proof/Machine/Rows.lean ====
section
/-! DEFINITION. SEND_ROW and DISPLAY_FRAME (R107 to R115). -/

namespace Sys2Proof.Machine

/-- ROW_TRACE (R108): the bytes of columns 7, 6 and 5, then the previous row off, then the bytes of columns 4 down to 0,
then the latch pulse, then row r on. -/
def rowTrace (g : Byte → Byte) (r : Fin 8) (p : Vector Byte 24) : Except FaultCause (List Event) := do
  let off ← rowSelect (prevRow r).val false
  let on ← rowSelect r.val true
  return sendBytes ((rowStream g p).take Config.deactAfterBytes)
    ++ off
    ++ sendBytes ((rowStream g p).drop Config.deactAfterBytes)
    ++ pulseLatch
    ++ on

/-- TRACE(SEND_ROW r) (R108): one atomic row read; a row outside 0..7 is ROW_RANGE before any read (R37). -/
def sendRowTrace (g : Byte → Byte) (r : BitVec 8) (fb : Memory) : Except FaultCause (List Event × Fsm) :=
  match rowIndex r with
  | some row => do
    let es ← rowTrace g row (fb.rowBytes row)
    return (es, .rowActive row)
  | none => .error .rowRange

/-- SEND_ROW r (R108). At UNINIT its acceptance raises NOT_INITIALIZED, and for r in 8..15 ROW_RANGE (R107). -/
def execSendRow (r : BitVec 8) (s : State) : Result :=
  accept (.sendRow r) (sendRowTrace Config.gamma r) s

/-- The traces of the given rows of a frame, one after another (R115). -/
def rowsTrace (g : Byte → Byte) (f : Vector Byte 192) : List (Fin 8) → Except FaultCause (List Event)
  | [] => .ok []
  | r :: rs => do
    let es ← rowTrace g r (rowOfFrame f r)
    let rest ← rowsTrace g f rs
    return es ++ rest

/-- TRACE(DISPLAY_FRAME) (R115): one atomic frame read, then rows 0..7 of that frame. -/
def displayTrace (g : Byte → Byte) (fb : Memory) : Except FaultCause (List Event × Fsm) := do
  let es ← rowsTrace g fb.frameBytes (List.finRange 8)
  return (es, .rowActive 7)

/-- DISPLAY_FRAME (R115). At UNINIT its acceptance raises NOT_INITIALIZED (R107). -/
def execDisplayFrame (s : State) : Result :=
  accept .displayFrame (displayTrace Config.gamma) s

end Sys2Proof.Machine
end

