-- ==== Sys2Proof/Machine/Dispatch.lean ====
section
/-! DEFINITION. The meaning of every command, one arm each. -/

namespace Sys2Proof.Machine

def exec (i : Instr) (s : State) : Host.Outcome State Fault Refusal :=
  match i with
  | .init => Sys2Proof.Machine.execInit s
  | .sendRow r => Sys2Proof.Machine.execSendRow r s
  | .displayFrame => Sys2Proof.Machine.execDisplayFrame s

end Sys2Proof.Machine
end

