-- ==== Sys2Proof/Machine/HostTasks.lean ====
section
/-! DEFINITION. The host code that issues commands: the startup code, the display task and any other (R130, R131, R138,
R183). -/

namespace Sys2Proof.Machine

/-- Host code presents its next word (R100, "one command word w at a time"). While a word waits on the port, or the display
task is held inside an activation, the host is held and presents nothing (log 3). -/
def presentTurn (s : State) : State :=
  match s.host.port, s.host.phase, s.host.cmds with
  | none, .dormant, w :: ws => { s with host := { s.host with port := some w, cmds := ws } }
  | _, _, _ => s

/-- The display task runs (R138). Dormant: its activation issues SEND_ROW IDX, unless another word waits. Held: once the
word is accepted, IDX and the absolute deadline DL advance and the activation ends. Log 4. -/
def displayTurn (s : State) : State :=
  match s.host.port, s.host.phase with
  | some _, _ => s
  | none, .dormant =>
    { s with host := { s.host with port := some (encode (.sendRow (BitVec.ofNat 8 s.host.idx.val))), phase := .held } }
  | none, .held =>
    { s with host := { s.host with idx := nextRow s.host.idx, dl := s.host.dl + Config.rowPeriod, phase := .dormant } }

/-- The startup code resets the block and issues INIT (R130, R183 steps 2 and 3). Whatever the host held before is gone
with it. Log 13. -/
def startupTurn (s : State) : State :=
  let t := resetBlock s
  { t with host := { t.host with port := some (encode .init), phase := .dormant } }

/-- The startup code starts the display task with IDX = 0 and its first deadline T0, and enables the receive task with
CURSOR = 0 (R183 step 4, R141). Log 14. -/
def startTasksTurn (s : State) : State :=
  { s with host := { s.host with idx := 0, dl := Config.t0, phase := .dormant, cursor := 0 } }

end Sys2Proof.Machine
end

