-- ==== Sys2Proof/Machine/Observer.lean ====
section
/-! DEFINITION. The observer of the downstream chip (R22 to R27). It follows the block's events and changes nothing of the
block. -/

namespace Sys2Proof.Machine

/-- The last n bits of SR in sample order. Positions that no sampled bit has reached are any value: bits of the given draw
(R24, log 9). -/
@[irreducible] def lastBits (n : Nat) (sr : List Bool) (draw : Nat) : Vector Bool n :=
  Vector.ofFn fun k : Fin n =>
    if n ≤ sr.length + k.val then sr.getD (sr.length + k.val - n) false else Config.freeBit draw k.val

/-- The commit of a latch pulse (R24): SB chooses the bank. -/
def Observer.commit (o : Observer) (sb : Bool) : Observer :=
  if sb then { o with out1 := lastBits 192 o.sr o.draws, draws := o.draws + 1 }
  else { o with out0 := lastBits 144 o.sr o.draws, draws := o.draws + 1 }

/-- The level LAT takes at the transition that commits (R24). -/
def commitLevel : LatchEdge → Bool
  | .falling => false
  | .rising => true

/-- What the observer makes of an event, with the lines as they are before it: a rising clock edge samples SDA (R23), the
committing transition of LAT loads a bank (R24), and SR is cleared when RST returns to 1 (R27). -/
def Observer.observe (edge : LatchEdge) (before : Lines) (e : Event) (o : Observer) : Observer :=
  match e with
  | .set .sck true => if before.sck then o else { o with sr := o.sr ++ [before.sda] }
  | .set .lat v => if before.lat ≠ v ∧ v = commitLevel edge then o.commit before.sb else o
  | .set .rst true => if before.rst then o else { o with sr := [] }
  | _ => o

/-- The observer after a list of events, with the lines before the first of them. -/
def Observer.observeAll (edge : LatchEdge) (ls : Lines) : List Event → Observer → Observer
  | [], o => o
  | e :: es, o => Observer.observeAll edge (ls.perform e) es (o.observe edge ls e)

/-- OUT0 and OUT1 hold any value: both are drawn afresh (R22, R27, log 9). -/
def Observer.drawBanks (o : Observer) : Observer :=
  { o with
    out0 := Config.freeBits 144 o.draws 0
    out1 := Config.freeBits 192 o.draws 144
    draws := o.draws + 1 }

/-- While RST is 0 the banks hold any value (R27): after every step that leaves RST low they are drawn afresh. -/
def settle (s : State) : State :=
  if s.block.lines.rst then s else { s with chip := s.chip.drawBanks }

/-- Byte j of OUT1: bits 8j..8j+7 in sample order, the first as its MSB (R26). -/
def bankByte (bank : Vector Bool 192) (j : Fin 24) : Byte :=
  BitVec.ofFnLE fun i : Fin 8 => bank[8 * j.val + (7 - i.val)]'(by omega)

/-- The byte of OUT1 that drives column c, channel ch: byte j drives column `7 - j / 3` and channel `[B, G, R][j mod 3]`
(R26). -/
def driveByte (c : Fin 8) (ch : Channel) : Fin 24 :=
  ⟨3 * (7 - c.val) + (2 - ch.toFin.val), by omega⟩

/-- What physical row r shows at column c, channel ch: the drive value of OUT1 while line C_r is high (R26), and nothing
while it is low (log 27). -/
def State.shown (s : State) (r c : Fin 8) (ch : Channel) : Option Byte :=
  if s.block.lines.rows[r] then some (bankByte s.chip.out1 (driveByte c ch)) else none

end Sys2Proof.Machine
end

