-- ==== Sys2Proof/Machine/Receiver.lean ====
section
/-! DEFINITION. The host's frame receiver (R132 to R137). -/

namespace Sys2Proof.Machine

/-- EXCHANGE (R133): FB and SCRATCH change places, all 192 bytes of each at once, and CURSOR becomes 0. -/
def exchange (s : State) : State :=
  { s with
    block := { s.block with fb := s.block.fb.memWrite 0 192 s.host.scratch (by omega) }
    host := { s.host with scratch := s.block.fb.bytes, cursor := 0 } }

/-- RECEIVE x (R136): the marker resets CURSOR; any other byte goes to SCRATCH, and the 192nd since CURSOR was 0 exchanges
the frame. CURSOR = 192 has no place to write (R137: never between bytes; log 18). -/
def receive (x : Byte) (s : State) : Result :=
  if x = Config.marker then .next { s with host := { s.host with cursor := 0 } }
  else if h : s.host.cursor.val < 192 then
    let stored : State :=
      { s with host := { s.host with scratch := s.host.scratch.set s.host.cursor.val x, cursor := ⟨s.host.cursor.val + 1, by omega⟩ } }
    .next (if s.host.cursor.val + 1 = 192 then exchange stored else stored)
  else .fault .cursorPastFrame

end Sys2Proof.Machine
end

