-- ==== Sys2Proof/Machine/Sequencer.lean ====
section
/-! DEFINITION. One action of one agent: the block's event step and acceptance (R100 to R102), and the host's turns. -/

namespace Sys2Proof.Machine

/-- The event step (R101): the head event of PEND is performed and removed, the chip observes it (R23, R24, R27), and FSM
takes POST exactly when PEND becomes empty (R102). A delay changes no state (R94, log 19). -/
def eventStep (e : Event) (rest : List Event) (s : State) : State :=
  { s with
    block := { s.block with
      lines := s.block.lines.perform e
      pend := rest
      fsm := if rest.isEmpty then s.block.post else s.block.fsm }
    chip := s.chip.observe Config.latchEdge s.block.lines e }

/-- An idle block takes the word that waits on the port (R100): a command runs its meaning, an illegal word faults. With no
word, nothing happens (R181). A FAULTED block accepts none, inside `accept` and `acceptIllegal` (R164). -/
def acceptPort (s : State) : Result :=
  match s.host.port with
  | none => .next s
  | some w =>
    match decode w with
    | .ok i => exec i s
    | .error why => acceptIllegal why w s

/-- The block's turn: an event step when busy, else the word on the port (R100, R101). -/
def blockTurn (s : State) : Result :=
  match s.block.pend with
  | e :: rest => .next (eventStep e rest s)
  | [] => acceptPort s

/-- One turn of one agent. -/
def takeTurn (t : Turn) (s : State) : Result :=
  match t with
  | .block => blockTurn s
  | .present => .next (presentTurn s)
  | .receive x => receive x s
  | .display => .next (displayTurn s)
  | .startup => .next (startupTurn s)
  | .startTasks => .next (startTasksTurn s)
  | .reset => .next (resetBlock s)

/-- The next turn of the list is taken and removed; with none left the block acts (log 2). -/
def nextTurn (s : State) : Result :=
  match s.turns with
  | [] => blockTurn s
  | t :: ts => takeTurn t { s with turns := ts }

/-- The word a host would put on the port for the instruction whose bits are w (R100). -/
def tableWord (nbits w : Nat) : Word := BitVec.ofNat 16 (w % 2 ^ nbits)

end Sys2Proof.Machine
end

