-- ==== Sys2Proof/Machine/Step.lean ====
section
/-! DEFINITION. The step: one action of one agent, after which the banks of a chip held in reset hold any value (R27). -/

namespace Sys2Proof.Machine

/-- One step of the machine. -/
def step (s : State) : Host.Outcome State Fault Refusal := mapNext settle (nextTurn s)

/-- The state with a word presented on the command port of an idle block whose turn it is, so that the next step accepts
it: there is no program in memory to store it in (R44). Log 1. -/
def State.withFetchWord (s : State) (nbits w : Nat) : State :=
  { s with
    block := { s.block with pend := [] }
    host := { s.host with port := some (tableWord nbits w) }
    turns := [] }

end Sys2Proof.Machine
end

