-- ==== Sys2Proof/Machine/Image.lean ====
section
/-! DEFINITION. The image content functions of the host (R144 to R148): binary32 scaling, division and the gradient. Binary32
values are exact rationals; the block never computes any of these. Log 20. -/

namespace Sys2Proof.Machine

/-- A binary32 value: finite, infinite (with its sign) or NaN. The two zeros are one value (log 20). -/
inductive F32 where
  | finite (v : Rat)
  | inf (negative : Bool)
  | nan
deriving DecidableEq, Repr

/-- `2 ^ e` for an integer e. -/
def pow2 (e : Int) : Rat :=
  if 0 ≤ e then ((2 ^ e.toNat : Nat) : Rat) else 1 / ((2 ^ (-e).toNat : Nat) : Rat)

/-- The exponent of a positive rational: the e with `2 ^ e ≤ q < 2 ^ (e + 1)`. -/
def binaryExponent (q : Rat) : Int :=
  let e : Int := (Nat.log2 q.num.toNat : Int) - (Nat.log2 q.den : Int)
  if pow2 e ≤ q then e else e - 1

/-- The nearest integer, a tie to the even one (R145, `fl32`). -/
def roundHalfEven (q : Rat) : Int :=
  let n := q.floor
  let d := q - n
  if d < 1 / 2 then n else if 1 / 2 < d then n + 1 else if n % 2 = 0 then n else n + 1

/-- The nearest integer, a tie away from zero (R145). -/
def roundHalfAway (q : Rat) : Int :=
  if 0 ≤ q then (q + 1 / 2).floor else -(-q + 1 / 2).floor

/-- A positive rational rounded to binary32's 24 bits of precision and least exponent -149, without its upper bound. -/
def roundBinary32 (q : Rat) : Rat :=
  let quantum := pow2 (max (binaryExponent q - 23) (-149))
  (roundHalfEven (q / quantum) : Rat) * quantum

/-- `fl32`: the nearest binary32 value, ties to even, and an infinity from 2^128 on (R145). -/
def fl32 (q : Rat) : F32 :=
  if q = 0 then .finite 0
  else
    let m := roundBinary32 (if q < 0 then -q else q)
    if pow2 128 ≤ m then .inf (decide (q < 0)) else .finite (if q < 0 then -m else m)

/-- A binary32 product of finite values (R145). -/
def mul32 (x f : F32) : F32 :=
  match x, f with
  | .finite a, .finite b => fl32 (a * b)
  | _, _ => .nan

/-- An integer clamped to 0..255 (R145). -/
def clampByte (n : Int) : Byte := BitVec.ofNat 8 (min 255 (max 0 n)).toNat

/-- Round, then clamp (R145). An infinite product clamps like any value beyond the range (log 20). -/
def roundClamp (v : F32) : Byte :=
  match v with
  | .finite q => clampByte (roundHalfAway q)
  | .inf negative => if negative then 0 else 255
  | .nan => 0

/-- SCALE(x, f) (R145). A scalar that is NaN or infinite is refused. -/
def scale (x : Byte) (f : F32) : Except Refusal Byte :=
  match f with
  | .finite q =>
    match fl32 q with
    | .finite s => .ok (roundClamp (mul32 (fl32 (x.toNat : Rat)) (.finite s)))
    | _ => .error .nonFiniteScalar
  | _ => .error .nonFiniteScalar

/-- `fl32(1 / f)` (R146); the reciprocal of zero is infinite, and of a NaN or infinite scalar refused (log 21). -/
def reciprocal (f : F32) : F32 :=
  match f with
  | .finite q => if q = 0 then .inf false else fl32 (1 / q)
  | _ => .nan

/-- `c * f`, per channel (R145). -/
def Color.scaleBy (c : Color) (f : F32) : Except Refusal Color := do
  let r ← scale c.r f
  let g ← scale c.g f
  let b ← scale c.b f
  return { r := r, g := g, b := b }

/-- `c / f`, that is `c * fl32(1 / f)` (R146). -/
def Color.divideBy (c : Color) (f : F32) : Except Refusal Color := c.scaleBy (reciprocal f)

/-- Black, the default colour (R144). -/
def Color.black : Color := { r := 0, g := 0, b := 0 }

/-- The divisor of a gradient cell: `1 + row * row + col` (R148). -/
def gradientDivisor (row col : Fin 8) : Nat := 1 + row.val * row.val + col.val

/-- The cell of `GRADIENT(c)` at (row, col) (R148). -/
def gradientCell (c : Color) (row col : Fin 8) : Except Refusal Color :=
  c.divideBy (.finite (gradientDivisor row col : Rat))

/-- An image as its 192 bytes, from its cells (R31, R144). -/
def imageBytes (cell : Fin 8 → Fin 8 → Color) : Vector Byte 192 :=
  Vector.ofFn fun a : Fin 192 => (cell (addrRow a) (addrCol a)).channel (addrChannel a)

/-- The uniform fill (R144). -/
def uniformImage (c : Color) : Vector Byte 192 := imageBytes fun _ _ => c

/-- The default image, all zero (R144). -/
def defaultImage : Vector Byte 192 := uniformImage Color.black

/-- `GRADIENT(c)` (R148): refused only if a cell is, which no divisor 1..57 makes. -/
def gradientImage (c : Color) : Except Refusal (Vector Byte 192) := do
  let cells ← (List.finRange 64).mapM fun k : Fin 64 =>
    gradientCell c ⟨k.val / 8, by omega⟩ ⟨k.val % 8, by omega⟩
  return Vector.ofFn fun a : Fin 192 => (cells.getD (a.val / 3) Color.black).channel (addrChannel a)

end Sys2Proof.Machine
end

