-- ==== Sys2Proof/Machine/Flags.lean ====
section
/-! DEFINITION. The block has no flags (R17); what a model may observe of its status instead: the codes of FSM and of the
fault causes (R12, R160), the active row (R13), the packed line vector (R10) and the STATUS view (R18). -/

namespace Sys2Proof.Machine

/-- The 4-bit code of an FSM value (R12). -/
def Fsm.code : Fsm → BitVec 4
  | .uninit => 0x0
  | .bankInit => 0x1
  | .faulted => 0x2
  | .rowActive r => BitVec.ofNat 4 (8 + r.val)

/-- The 4-bit code of a fault cause (R160). -/
def FaultCause.code : FaultCause → BitVec 4
  | .noFault => 0
  | .rowRange => 1
  | .illegalCommand => 2
  | .notInitialized => 3
  | .reinit => 4

/-- ACT, the currently active row: a function of FSM (R13). -/
def Fsm.act : Fsm → Option (Fin 8)
  | .rowActive r => some r
  | _ => none

/-- The id of a line (R10). -/
def Line.id : Line → Fin 13
  | .sda => 0
  | .sck => 1
  | .lat => 2
  | .sb => 3
  | .rst => 4
  | .row r => ⟨5 + r.val, by omega⟩

/-- The line of an id (R10). -/
def Line.ofId (n : Fin 13) : Line :=
  if h : 5 ≤ n.val then .row ⟨n.val - 5, by omega⟩
  else
    match n.val with
    | 0 => .sda
    | 1 => .sck
    | 2 => .lat
    | 3 => .sb
    | _ => .rst

/-- LINEVEC: bit l is `LINES[l]` (R10). -/
def Lines.linevec (ls : Lines) : BitVec 13 :=
  BitVec.ofFnLE fun n => ls.get (Line.ofId n)

/-- STATUS: bits 3..0 the FSM code, bits 7..4 the fault cause, bit 8 busy, bits 15..9 zero (R18). -/
def Block.status (b : Block) : BitVec 16 :=
  (0 : BitVec 7) ++ BitVec.ofBool (!b.idle) ++ b.fault.cause.code ++ b.fsm.code

end Sys2Proof.Machine
end

