-- ==== Sys2Proof/Safety.lean ====
section
/-! DEFINITION. The terms claims are stated in: runs, the lines and the FSM value a pending trace leads to, the row lines that
are high, the invariant that every step keeps, and the runs in which only the display task issues commands. -/

namespace Sys2Proof.Machine

/-- k steps, stopping at the first fault or refusal. -/
def runSteps : Nat → State → Result
  | 0, s => .next s
  | k + 1, s =>
    match step s with
    | .next t => runSteps k t
    | .fault r => .fault r
    | .refused r => .refused r

/-- The row lines when no row is active. -/
def noRow : Vector Bool 8 := Vector.replicate 8 false

/-- The row lines when C_r is the only one that is high. -/
def onlyRow (r : Fin 8) : Vector Bool 8 := Vector.ofFn fun k => decide (k = r)

/-- At most one row line is high (R110, 90_conflicts.md C1). -/
def atMostOneRow (rows : Vector Bool 8) : Prop := ∀ i j : Fin 8, rows[i] = true → rows[j] = true → i = j

/-- FSM says the bank is initialized: BANK_INIT or ROW_ACTIVE(p) (R107, R114). -/
def Fsm.ready : Fsm → Bool
  | .bankInit => true
  | .rowActive _ => true
  | .uninit => false
  | .faulted => false

/-- The lines once every pending event has been performed. -/
def Block.finalLines (b : Block) : Lines := b.lines.performAll b.pend

/-- The FSM value once every pending event has been performed (R102). -/
def Block.finalFsm (b : Block) : Fsm := if b.idle then b.fsm else b.post

/-- A turn that resets the block (R180, R130). -/
def Turn.resets : Turn → Bool
  | .reset => true
  | .startup => true
  | _ => false

/-- The turn that the next step takes: the head of the list, or the block's (log 2). -/
def State.turn (s : State) : Turn := s.turns.headD .block

/-- When each fault is raised, for the FSM value and the decoded word at an acceptance (R161). -/
def faultCondition (f : FaultCause) (fsm : Fsm) (d : Except Illegal Instr) : Prop :=
  match f with
  | .noFault => False
  | .rowRange => fsm ≠ .uninit ∧ ∃ r, d = .ok (.sendRow r) ∧ 7 < r.toNat
  | .illegalCommand => ∃ why, d = .error why
  | .notInitialized => fsm = .uninit ∧ ((∃ r, d = .ok (.sendRow r)) ∨ d = .ok .displayFrame)
  | .reinit => fsm ≠ .uninit ∧ d = .ok .init

/-- What every step keeps, from the rules named on each line. -/
structure MachineInv (s : State) : Prop where
  /-- The frame buffer keeps its canonical form (log 6). -/
  memory : s.block.fb.wf = true
  /-- CURSOR is 0..191 between bytes (R137). -/
  cursor : s.host.cursor.val < 192
  /-- FAULT is set exactly in FAULTED (R16, R162). -/
  faultRecord : s.block.fsm = .faulted ↔ s.block.fault.cause ≠ .noFault
  /-- Without a fault no word is recorded (R16, R160). -/
  noInfo : s.block.fault.cause = .noFault → s.block.fault.info = 0
  /-- A FAULTED block has nothing pending (R162, R164). -/
  faultIdle : s.block.fsm = .faulted → s.block.pend = []
  /-- A trace leads to BANK_INIT or to an active row (R102). -/
  post : s.block.pend ≠ [] → s.block.post.ready = true
  /-- The longest trace has 6184 events (R15). -/
  length : s.block.pend.length ≤ 6184
  /-- SCK is 0 between traces (R91). -/
  clock : s.block.finalLines.sck = false
  /-- LAT is 1 between traces (R92). -/
  latch : s.block.finalLines.lat = true
  /-- Before INIT the lines are at their reset levels (R20, R114). -/
  uninit : s.block.finalFsm = .uninit → s.block.lines = Lines.reset
  /-- After INIT standby is high and the downstream chip out of reset (R105). -/
  powered : s.block.finalFsm.ready = true → s.block.finalLines.sb = true ∧ s.block.finalLines.rst = true
  /-- At BANK_INIT every row line is 0 (R113). -/
  dark : s.block.finalFsm = .bankInit → s.block.finalLines.rows = noRow
  /-- At ROW_ACTIVE(r) line C_r is high (R12, R108). -/
  lit : ∀ r : Fin 8, s.block.finalFsm = .rowActive r → s.block.finalLines.rows[r] = true

/-- Row r may be sent next in cyclic order after a trace that leads to f: any row first, then the next one (R110, R143
duty 3). -/
def followsCyclic (f : Fsm) (r : Fin 8) : Prop :=
  match f with
  | .bankInit => True
  | .rowActive p => r = nextRow p
  | .uninit => False
  | .faulted => False

/-- Where the display task and its word on the port stand in a run in which only the task issues commands (R138). -/
def taskInOrder (h : HostState) (f : Fsm) : Prop :=
  match h.phase, h.port with
  | .dormant, none => followsCyclic f h.idx
  | .held, some w => w = encode (.sendRow (BitVec.ofNat 8 h.idx.val)) ∧ followsCyclic f h.idx
  | .held, none => f = .rowActive h.idx
  | .dormant, some _ => False

/-- A turn of such a run: the block's, the display task's, or a received byte (R140, R142). -/
def Turn.ofTaskRun : Turn → Prop
  | .block => True
  | .display => True
  | .receive _ => True
  | .present => False
  | .startup => False
  | .startTasks => False
  | .reset => False

/-- The commands a host that keeps its duties may issue after a trace that leads to f (R143): INIT first and once, rows in
0..7 in cyclic order, DISPLAY_FRAME only first or after row 7. -/
def dutiful : Fsm → List Instr → Prop
  | _, [] => True
  | f, .init :: is => f = .uninit ∧ dutiful .bankInit is
  | f, .sendRow r :: is => ∃ k : Fin 8, r = BitVec.ofNat 8 k.val ∧ followsCyclic f k ∧ dutiful (.rowActive k) is
  | f, .displayFrame :: is => (f = .bankInit ∨ f = .rowActive 7) ∧ dutiful (.rowActive 7) is

/-- Commands issued one after another, each trace performed to its end before the next is accepted (R14, R100). -/
def runProgram : List Instr → State → Result
  | [], s => .next s
  | i :: is, s =>
    match exec i s with
    | .next t =>
      match runSteps t.block.pend.length t with
      | .next u => runProgram is u
      | .fault r => .fault r
      | .refused r => .refused r
    | .fault r => .fault r
    | .refused r => .refused r

/-- A state of a run of the display task: the bank is initialized or being initialized, the task is the only one that issues
commands, and at most one row line is high now and after each pending event (R140). -/
structure TaskRun (s : State) : Prop where
  turns : ∀ t ∈ s.turns, Turn.ofTaskRun t
  cursor : s.host.cursor.val < 192
  task : taskInOrder s.host s.block.finalFsm
  oneRow : ∀ n : Nat, atMostOneRow (s.block.lines.performAll (s.block.pend.take n)).rows
  final : s.block.finalLines.rows =
    match s.block.finalFsm with
    | .rowActive p => onlyRow p
    | _ => noRow

end Sys2Proof.Machine
end

