-- ==== Sys2Proof/Certificates/Slice0/Obligations.lean ====
section
/-! DEFINITION. The statements for the provers. A statement that rests on a choice of the model or on an inference the spec marks
as its own says so in its docstring. -/

open Sys2Proof Sys2Proof.Machine

/-! ### Encoding -/

/-- Decode and encode agree on every word and every term: a word decodes to i exactly when i is well formed and the word is
its encoding (R53, R57; the decoder's text R56 is the spec's own derivation). -/
def Obligations.DecodeIffEncode : Prop :=
  ∀ (w : Word) (i : Instr), decode w = .ok i ↔ i.wellFormed = true ∧ encode i = w

/-- Words written out from the table decode as 30_encoding.md rule R61 lists them (the spec's own derivation). -/
def Obligations.WrittenWordsDecode : Prop :=
  decode 0b0001000000000000#16 = .ok .init ∧
  decode 0b0010001100000000#16 = .ok (.sendRow 3) ∧
  decode 0b0010011100000000#16 = .ok (.sendRow 7) ∧
  decode 0b0010111100000000#16 = .ok (.sendRow 15) ∧
  decode 0b0011000000000000#16 = .ok .displayFrame ∧
  decode 0x0000#16 = .error .reservedOpcode ∧
  decode 0x1100#16 = .error .rowField ∧
  decode 0x2001#16 = .error .reservedByte ∧
  decode 0x3400#16 = .error .rowField ∧
  decode 0x4000#16 = .error .reservedOpcode

/-- R55: a word is illegal exactly when one of the three conditions holds, and its acceptance raises ILLEGAL_COMMAND with the
word recorded. No word is skipped: 0x0000 is one of them. -/
def Obligations.IllegalWordsFault : Prop :=
  ∀ w : Word,
    ((∃ why, decode w = .error why) ↔
      ((w.extractLsb' 12 4 = 0x0 ∨ 0x4 ≤ (w.extractLsb' 12 4).toNat) ∨
        ((w.extractLsb' 12 4 = 0x1 ∨ w.extractLsb' 12 4 = 0x3) ∧ w.extractLsb' 8 4 ≠ 0) ∨
        ((w.extractLsb' 12 4 = 0x1 ∨ w.extractLsb' 12 4 = 0x2 ∨ w.extractLsb' 12 4 = 0x3) ∧ w.extractLsb' 0 8 ≠ 0))) ∧
    (∀ (s : State) (why : Illegal), decode w = .error why → s.turn = .block → s.block.pend = [] →
      s.block.fsm ≠ .faulted → s.host.port = some w →
      ∃ t, step s = .next t ∧
        t.block = { s.block with fault := { cause := .illegalCommand, info := w }, fsm := .faulted } ∧
        t.host = { s.host with port := none })

/-! ### The step and the acceptance of a word -/

/-- A step runs the decoded instruction: where an idle block has its turn and a word waits on the port that decodes to i, the
step is exec of i, with the turn removed from the list, and then the banks of a chip held in reset drawn afresh (logs 1, 2
and 9 are the model's; acceptance at a step is R100). -/
def Obligations.StepRunsDecoded : Prop :=
  ∀ (s : State) (w : Word) (i : Instr), s.block.pend = [] → s.host.port = some w → decode w = .ok i →
    s.turn = .block → step s = mapNext settle (exec i { s with turns := s.turns.tail })

/-- R100 and R162: at the block's turn a busy block leaves the word on the port; a FAULTED one holds the host; otherwise CHECK
decides between fault entry, which writes nothing but FAULT, FSM and PEND, and a trace that is never empty. That the wait of a
FAULTED block is a next state with nothing changed is the model's choice (log 17). -/
def Obligations.WordAcceptance : Prop :=
  ∀ (s : State) (w : Word), s.turn = .block → s.host.port = some w →
    (s.block.pend ≠ [] → ∃ t, step s = .next t ∧ t.host = s.host) ∧
    (s.block.pend = [] → s.block.fsm = .faulted →
      ∃ t, step s = .next t ∧ t.block = s.block ∧ t.host = s.host) ∧
    (∀ f, s.block.pend = [] → s.block.fsm ≠ .faulted → check (decode w) s.block.fsm = some f →
      ∃ t, step s = .next t ∧
        t.block = { s.block with fault := { cause := f, info := w }, fsm := .faulted, pend := [] } ∧
        t.host = { s.host with port := none }) ∧
    (s.block.pend = [] → s.block.fsm ≠ .faulted → check (decode w) s.block.fsm = none →
      ∃ t es post, step s = .next t ∧ es ≠ [] ∧ t.block = { s.block with pend := es, post := post } ∧
        t.host = { s.host with port := none })

/-- R163: the acceptance check and its precedence, encoding over state over operand. -/
def Obligations.CheckPrecedence : Prop :=
  (∀ why fsm, check (.error why) fsm = some .illegalCommand) ∧
  (∀ fsm, fsm ≠ .uninit → check (.ok .init) fsm = some .reinit) ∧
  check (.ok .init) .uninit = none ∧
  (∀ r, check (.ok (.sendRow r)) .uninit = some .notInitialized) ∧
  check (.ok .displayFrame) .uninit = some .notInitialized ∧
  (∀ r fsm, fsm ≠ .uninit → 7 < r.toNat → check (.ok (.sendRow r)) fsm = some .rowRange) ∧
  (∀ r fsm, fsm ≠ .uninit → r.toNat ≤ 7 → check (.ok (.sendRow r)) fsm = none) ∧
  (∀ fsm, fsm ≠ .uninit → check (.ok .displayFrame) fsm = none)

/-- R161: outside a reset FAULT changes only when an idle, not FAULTED block accepts a word, to a cause whose condition holds;
and where the condition of a cause holds, the acceptance raises it, with no line written, no event and nothing else changed. -/
def Obligations.FaultsRaisedExactly : Prop :=
  (∀ s t : State, step s = .next t → s.turn.resets = false → t.block.fault ≠ s.block.fault →
    s.turn = .block ∧ s.block.pend = [] ∧ s.block.fsm ≠ .faulted ∧
    ∃ w, s.host.port = some w ∧ t.block.fault.info = w ∧
      faultCondition t.block.fault.cause s.block.fsm (decode w)) ∧
  (∀ (s : State) (w : Word) (f : FaultCause), s.turn = .block → s.block.pend = [] → s.block.fsm ≠ .faulted →
    s.host.port = some w → faultCondition f s.block.fsm (decode w) →
    ∃ t, step s = .next t ∧ t.block = { s.block with fault := { cause := f, info := w }, fsm := .faulted } ∧
      t.host = { s.host with port := none })

/-- R164: a FAULTED block changes nothing but what a frame exchange puts into FB, and holds the host's word, at every step that
is no reset; a reset leaves FAULTED. -/
def Obligations.OnlyResetLeavesFaulted : Prop :=
  ∀ s t : State, s.block.fsm = .faulted → s.block.pend = [] → step s = .next t →
    (s.turn.resets = false →
      t.block = { s.block with fb := t.block.fb } ∧ (∀ w, s.host.port = some w → t.host.port = some w)) ∧
    (s.turn.resets = true → t.block.fsm = .uninit)

/-- R101, R103: while the block is busy, its turn performs the head event of PEND, removes it, and FSM takes POST when none is
left; no other turn but a reset changes the lines, FSM, FAULT, PEND or POST, a frame exchange included. The list of turns, from
which the step removes its turn, is the model's own (log 2). -/
def Obligations.BusyBlockStep : Prop :=
  ∀ (s : State) (e : Event) (rest : List Event), s.block.pend = e :: rest →
    (s.turn = .block → ∃ t, step s = .next t ∧
      t.block = { s.block with
        lines := (match e with
          | .set l v => s.block.lines.set l v
          | .delay _ => s.block.lines)
        pend := rest
        fsm := if rest = [] then s.block.post else s.block.fsm } ∧
      t.host = s.host ∧ t.turns = s.turns.tail) ∧
    (∀ t, s.turn ≠ .block → s.turn.resets = false → step s = .next t →
      t.block = { s.block with fb := t.block.fb } ∧ t.turns = s.turns.tail)

/-- R12, R102: the codes of FSM, of which 0x3 to 0x7 are never held, and the only ways FSM changes apart from reset: a fault at
acceptance, or the last event of a trace, where it takes POST. -/
def Obligations.FsmChangesOnly : Prop :=
  (Fsm.uninit.code = 0x0 ∧ Fsm.bankInit.code = 0x1 ∧ Fsm.faulted.code = 0x2 ∧
    (∀ r : Fin 8, (Fsm.rowActive r).code.toNat = 8 + r.val)) ∧
  (∀ f : Fsm, ¬ (3 ≤ f.code.toNat ∧ f.code.toNat ≤ 7)) ∧
  (∀ s t : State, step s = .next t → s.turn.resets = false → t.block.fsm ≠ s.block.fsm →
    s.turn = .block ∧
    ((s.block.pend = [] ∧ t.block.fsm = .faulted ∧
        ∃ w f, s.host.port = some w ∧ check (decode w) s.block.fsm = some f ∧
          t.block.fault = { cause := f, info := w }) ∨
     (∃ e, s.block.pend = [e] ∧ t.block.fsm = s.block.post)))

/-- R11: outside a reset a line changes only by an event, and an event writes one line. -/
def Obligations.LinesChangeOnlyByEvents : Prop :=
  ∀ (s t : State) (l : Line), step s = .next t → s.turn.resets = false →
    t.block.lines.get l ≠ s.block.lines.get l →
    s.turn = .block ∧ ∃ v rest, s.block.pend = .set l v :: rest ∧ t.block.pend = rest ∧
      t.block.lines.get l = v ∧ ∀ m, m ≠ l → t.block.lines.get m = s.block.lines.get m

/-- R184, R102: n steps of a busy block that has only its own turns perform the first n events of its trace, in order, with none
dropped; FSM takes POST with the last one. FB, FAULT, POST and the host are untouched. -/
def Obligations.EventsRunInOrder : Prop :=
  ∀ (n : Nat) (s : State), s.turns = [] → n ≤ s.block.pend.length → s.block.pend ≠ [] →
    ∃ u, runSteps n s = .next u ∧
      u.block = { s.block with
        lines := s.block.lines.performAll (s.block.pend.take n)
        pend := s.block.pend.drop n
        fsm := if n = s.block.pend.length then s.block.post else s.block.fsm } ∧
      u.host = s.host ∧ u.turns = []

/-- A busy or FAULTED block accepts no command: the host is held and nothing changes (R100, R114; that exec itself says so is
the model's choice, log 17). -/
def Obligations.HeldCommandsChangeNothing : Prop :=
  ∀ (i : Instr) (s : State), s.block.pend ≠ [] ∨ s.block.fsm = .faulted → exec i s = .next s

/-! ### INIT -/

/-- INIT at UNINIT (R105): PEND becomes the 583-event trace, POST becomes BANK_INIT, the word is taken; nothing else changes. -/
def Obligations.InitAccepted : Prop :=
  ∀ s : State, s.block.pend = [] → s.block.fsm = .uninit →
    ∃ es : List Event,
      es = [.delay 100, .set .rst true, .set .sb false] ++ sendBytes (List.replicate 18 0xFF#8)
        ++ [.set .lat true, .set .lat false, .set .lat true, .set .sb true] ∧
      es.length = 583 ∧
      exec .init s = .next { s with
        block := { s.block with pend := es, post := .bankInit }
        host := { s.host with port := none } }

/-- R106: INIT when FSM is neither UNINIT nor FAULTED raises REINIT, with no event. -/
def Obligations.SecondInitFaults : Prop :=
  ∀ s : State, s.block.pend = [] → s.block.fsm ≠ .uninit → s.block.fsm ≠ .faulted →
    exec .init s = .next { s with
      block := { s.block with fault := { cause := .reinit, info := 0x1000 }, fsm := .faulted }
      host := { s.host with port := none } }

/-- The whole of INIT (43_row_fsm.md R105, corner cases): 583 steps after its acceptance SDA, LAT, SB and RST are 1, SCK is 0,
the row lines, FB and FAULT are as before, FSM is BANK_INIT, and bank 0 of the observer holds 144 ones whichever transition
of LAT commits (the observer is the spec's decision D10). -/
def Obligations.InitRuns : Prop :=
  ∀ s : State, s.turns = [] → s.block.pend = [] → s.block.fsm = .uninit →
    ∃ t u, exec .init s = .next t ∧ runSteps 583 t = .next u ∧
      u.block = { s.block with
        lines := { sda := true, sck := false, lat := true, sb := true, rst := true, rows := s.block.lines.rows }
        fsm := .bankInit
        post := .bankInit } ∧
      u.host = { s.host with port := none } ∧
      u.chip.out0 = Vector.replicate 144 true

/-! ### SEND_ROW -/

/-- SEND_ROW r after INIT with r in 0..7 (R108): PEND becomes the trace of row r of the frame read now, POST ROW_ACTIVE(r), the
word is taken; nothing else changes. -/
def Obligations.SendRowAccepted : Prop :=
  ∀ (s : State) (r : BitVec 8) (h : r.toNat < 8), s.block.pend = [] → s.block.fsm.ready = true →
    exec (.sendRow r) s = .next { s with
      block := { s.block with
        pend :=
          sendBytes ((rowStream Config.gamma (s.block.fb.rowBytes ⟨r.toNat, h⟩)).take 9)
            ++ [.set (.row ⟨(r.toNat + 7) % 8, Nat.mod_lt _ (by decide)⟩) false]
            ++ sendBytes ((rowStream Config.gamma (s.block.fb.rowBytes ⟨r.toNat, h⟩)).drop 9)
            ++ [.set .lat true, .set .lat false, .set .lat true, .set (.row ⟨r.toNat, h⟩) true]
        post := .rowActive ⟨r.toNat, h⟩ }
      host := { s.host with port := none } }

/-- R107: SEND_ROW of any row and DISPLAY_FRAME raise NOT_INITIALIZED at UNINIT, and SEND_ROW of a row outside 0..7 raises
ROW_RANGE after INIT, each with no event. For a row of 16 or more, which no word decodes to, the fault and the recorded word are
the model's choice (log 25). -/
def Obligations.RowsNeedInitAndRange : Prop :=
  ∀ s : State, s.block.pend = [] →
    (∀ r : BitVec 8, s.block.fsm = .uninit →
      exec (.sendRow r) s = .next { s with
        block := { s.block with fault := { cause := .notInitialized, info := encode (.sendRow r) }, fsm := .faulted }
        host := { s.host with port := none } }) ∧
    (s.block.fsm = .uninit →
      exec .displayFrame s = .next { s with
        block := { s.block with fault := { cause := .notInitialized, info := 0x3000 }, fsm := .faulted }
        host := { s.host with port := none } }) ∧
    (∀ r : BitVec 8, s.block.fsm.ready = true → 7 < r.toNat →
      exec (.sendRow r) s = .next { s with
        block := { s.block with fault := { cause := .rowRange, info := encode (.sendRow r) }, fsm := .faulted }
        host := { s.host with port := none } })

/-- The event index map of SEND_ROW (R108, R58, R60): 773 events; bit k of stream byte j is a bit cell of
`GAMMA[FB[24r + 23 - j]]`, MSB first; event 288 turns the previous row off, 769..771 are the latch pulse, 772 turns row r on. -/
def Obligations.RowTraceMap : Prop :=
  ∀ (s t : State) (r : Fin 8), s.block.pend = [] → s.block.fsm.ready = true →
    exec (.sendRow (BitVec.ofNat 8 r.val)) s = .next t →
    t.block.pend.length = 773 ∧
    t.block.pend[288]? = some (.set (.row ⟨(r.val + 7) % 8, Nat.mod_lt _ (by decide)⟩) false) ∧
    t.block.pend[769]? = some (.set .lat true) ∧
    t.block.pend[770]? = some (.set .lat false) ∧
    t.block.pend[771]? = some (.set .lat true) ∧
    t.block.pend[772]? = some (.set (.row r) true) ∧
    ∀ (j : Fin 24) (k : Fin 8),
      let n := 4 * (8 * j.val + k.val) + (if j.val < 9 then 0 else 1)
      t.block.pend[n]? = some (.set .sda
        ((Config.gamma (s.block.fb.read ⟨24 * r.val + 23 - j.val, by omega⟩)).getLsbD (7 - k.val))) ∧
      t.block.pend[n + 1]? = some (.set .sck false) ∧
      t.block.pend[n + 2]? = some (.set .sck true) ∧
      t.block.pend[n + 3]? = some (.set .sck false)

/-- The row stream is the row's bytes in reverse address order, each through the table once (R83, the spec's own derivation
from R82). -/
def Obligations.RowStreamReversed : Prop :=
  ∀ (g : Byte → Byte) (p : Vector Byte 24),
    rowStream g p = (List.finRange 24).map fun j : Fin 24 => g (p[23 - j.val]'(by omega))

/-- The whole of SEND_ROW r (R108, R102): 773 steps after its acceptance SDA holds the last bit sent, SCK is 0, LAT is 1, the
previous row `(r + 7) mod 8` is off, row r is on, every other row line, SB, RST, FB and FAULT are as before, and FSM is
ROW_ACTIVE(r). -/
def Obligations.SendRowRuns : Prop :=
  ∀ (s : State) (r : Fin 8), s.turns = [] → s.block.pend = [] → s.block.fsm.ready = true →
    ∃ t u, exec (.sendRow (BitVec.ofNat 8 r.val)) s = .next t ∧ runSteps 773 t = .next u ∧
      u.block = { s.block with
        lines := { s.block.lines with
          sda := (Config.gamma (s.block.fb.read ⟨24 * r.val, by omega⟩)).getLsbD 0
          sck := false
          lat := true
          rows := (s.block.lines.rows.set ((r.val + 7) % 8) false (Nat.mod_lt _ (by decide))).set r.val true }
        fsm := .rowActive r
        post := .rowActive r } ∧
      u.host = { s.host with port := none }

/-- What a sent row shows (R26, derived there from the observer, decision D10): with the chip out of reset and standby high, 773
steps after the acceptance of SEND_ROW r physical row r shows `GAMMA[FB[24r + 3c + ch]]` at column c, channel ch, whichever
transition of LAT commits; bank 0 is untouched. -/
def Obligations.SentRowIsShown : Prop :=
  ∀ (s : State) (r : Fin 8), s.turns = [] → s.block.pend = [] → s.block.fsm.ready = true →
    s.block.lines.rst = true → s.block.lines.sb = true →
    ∃ t u, exec (.sendRow (BitVec.ofNat 8 r.val)) s = .next t ∧ runSteps 773 t = .next u ∧
      (∀ (c : Fin 8) (ch : Channel),
        u.shown r c ch = some (Config.gamma (s.block.fb.read (frameAddr r c ch)))) ∧
      u.chip.out0 = s.chip.out0

/-- Single active row (R110, derived there from R108 and R109): from BANK_INIT with no row on, or from ROW_ACTIVE(p) with only
C_p on and r the next row, after n events of SEND_ROW r: up to n = 288 the rows are as before, from 289 to 772 none is on, and
after all 773 only C_r is. -/
def Obligations.SingleActiveRow : Prop :=
  ∀ (s : State) (r : Fin 8), s.turns = [] → s.block.pend = [] →
    ((s.block.fsm = .bankInit ∧ s.block.lines.rows = noRow) ∨
      ∃ p : Fin 8, s.block.fsm = .rowActive p ∧ s.block.lines.rows = onlyRow p ∧ r.val = (p.val + 1) % 8) →
    ∃ t, exec (.sendRow (BitVec.ofNat 8 r.val)) s = .next t ∧
      ∀ n, n ≤ 773 → ∃ u, runSteps n t = .next u ∧
        u.block.lines.rows =
          if n ≤ 288 then s.block.lines.rows
          else if n ≤ 772 then noRow
          else onlyRow r

/-- Out of order (R111, derived there from R108): SEND_ROW r at ROW_ACTIVE(p), with r neither p nor the row after p, leaves both
C_p and C_r on, and raises no fault. -/
def Obligations.OutOfOrderLightsTwoRows : Prop :=
  ∀ (s : State) (p r : Fin 8), s.turns = [] → s.block.pend = [] → s.block.fsm = .rowActive p →
    s.block.lines.rows[p] = true → r ≠ p → r.val ≠ (p.val + 1) % 8 →
    ∃ t u, exec (.sendRow (BitVec.ofNat 8 r.val)) s = .next t ∧ runSteps 773 t = .next u ∧
      u.block.lines.rows[p] = true ∧ u.block.lines.rows[r] = true ∧
      u.block.fsm = .rowActive r ∧ u.block.fault = s.block.fault

/-- The same row again (R112, derived there from R108): SEND_ROW p with only C_p on leaves the row lines so at every instant. -/
def Obligations.SameRowStaysLit : Prop :=
  ∀ (s : State) (p : Fin 8), s.turns = [] → s.block.pend = [] → s.block.fsm = .rowActive p →
    s.block.lines.rows = onlyRow p →
    ∃ t, exec (.sendRow (BitVec.ofNat 8 p.val)) s = .next t ∧
      ∀ n, n ≤ 773 → ∃ u, runSteps n t = .next u ∧ u.block.lines.rows = onlyRow p

/-- The old row until the blanking (R187, derived there from R108 and R24): with the chip out of reset and LAT at 1, every row
shows what it showed while the first 72 bits of the stream are shifted in (288 events); from event 288 on the previous row is
off, and the statement says only that both banks are as before, up to the first transition of the latch pulse (770 events). -/
def Obligations.OldRowShownWhileShifting : Prop :=
  ∀ (s : State) (r : Fin 8), s.turns = [] → s.block.pend = [] → s.block.fsm.ready = true →
    s.block.lines.rst = true → s.block.lines.lat = true →
    ∃ t, exec (.sendRow (BitVec.ofNat 8 r.val)) s = .next t ∧
      ∀ n, n ≤ 770 → ∃ u, runSteps n t = .next u ∧ u.chip.out0 = s.chip.out0 ∧ u.chip.out1 = s.chip.out1 ∧
        (n ≤ 288 → ∀ (p c : Fin 8) (ch : Channel), u.shown p c ch = s.shown p c ch)

/-! ### DISPLAY_FRAME -/

/-- DISPLAY_FRAME after INIT (R115): PEND becomes the traces of rows 0..7 of the frame read now, 6184 events, POST
ROW_ACTIVE(7), the word is taken; nothing else changes. -/
def Obligations.DisplayFrameAccepted : Prop :=
  ∀ s : State, s.block.pend = [] → s.block.fsm.ready = true →
    ∃ es : List Event,
      es = ((List.finRange 8).flatMap fun r : Fin 8 =>
        sendBytes ((rowStream Config.gamma (s.block.fb.rowBytes r)).take 9)
          ++ [.set (.row ⟨(r.val + 7) % 8, Nat.mod_lt _ (by decide)⟩) false]
          ++ sendBytes ((rowStream Config.gamma (s.block.fb.rowBytes r)).drop 9)
          ++ [.set .lat true, .set .lat false, .set .lat true, .set (.row r) true]) ∧
      es.length = 6184 ∧
      exec .displayFrame s = .next { s with
        block := { s.block with pend := es, post := .rowActive 7 }
        host := { s.host with port := none } }

/-- The whole of DISPLAY_FRAME (R115, R102): 6184 steps after its acceptance only C7 is on, whatever was on before, SDA holds the
last bit of row 7, SCK is 0, LAT is 1, SB, RST, FB and FAULT are as before, and FSM is ROW_ACTIVE(7). With the chip out of reset
and standby high, row 7 then shows row 7 of the frame read at the acceptance, through the table, at every column and channel,
whichever transition of LAT commits, and bank 0 is untouched (R85 and R26, through the spec's observer, decision D10). -/
def Obligations.DisplayFrameRuns : Prop :=
  ∀ s : State, s.turns = [] → s.block.pend = [] → s.block.fsm.ready = true →
    ∃ t u, exec .displayFrame s = .next t ∧ runSteps 6184 t = .next u ∧
      u.block = { s.block with
        lines := { s.block.lines with
          sda := (Config.gamma (s.block.fb.read 168)).getLsbD 0
          sck := false
          lat := true
          rows := onlyRow 7 }
        fsm := .rowActive 7
        post := .rowActive 7 } ∧
      u.host = { s.host with port := none } ∧
      (s.block.lines.rst = true → s.block.lines.sb = true →
        (∀ (c : Fin 8) (ch : Channel),
          u.shown 7 c ch = some (Config.gamma (s.block.fb.read (frameAddr 7 c ch)))) ∧
        u.chip.out0 = s.chip.out0)

/-- DISPLAY_FRAME in the cycle (R115 with R110, the spec's own derivation): from BANK_INIT with no row on, or from ROW_ACTIVE(7)
with only C7 on, at most one row line is on after every event. -/
def Obligations.DisplayFrameOneRow : Prop :=
  ∀ s : State, s.turns = [] → s.block.pend = [] →
    ((s.block.fsm = .bankInit ∧ s.block.lines.rows = noRow) ∨
      (s.block.fsm = .rowActive 7 ∧ s.block.lines.rows = onlyRow 7)) →
    ∃ t, exec .displayFrame s = .next t ∧
      ∀ n, n ≤ 6184 → ∃ u, runSteps n t = .next u ∧ atMostOneRow u.block.lines.rows

/-- DISPLAY_FRAME out of the cycle (R115's corner case with R111, the spec's own derivation): from ROW_ACTIVE(p) with p in 1..6
and C_p on, both C_0 and C_p are on after each of events 772 to 1060. -/
def Obligations.DisplayFrameOutOfCycle : Prop :=
  ∀ (s : State) (p : Fin 8), 1 ≤ p.val → p.val ≤ 6 → s.turns = [] → s.block.pend = [] →
    s.block.fsm = .rowActive p → s.block.lines.rows[p] = true →
    ∃ t, exec .displayFrame s = .next t ∧
      ∀ n, 773 ≤ n → n ≤ 1061 → ∃ u, runSteps n t = .next u ∧
        u.block.lines.rows[(0 : Fin 8)] = true ∧ u.block.lines.rows[p] = true

/-- A host that keeps its duties (R143 with R110, R115, R140, R185 and R186): from an idle block at UNINIT with no row on, every
list of commands it may issue runs to its end, with no fault and FB as before; and while any of the commands runs, at most one
row line is on after each of its events. -/
def Obligations.DutifulHostLightsOneRow : Prop :=
  ∀ (s : State) (is : List Instr), s.turns = [] → s.block.pend = [] → s.block.fsm = .uninit →
    s.block.lines.rows = noRow → dutiful .uninit is →
    (∃ u, runProgram is s = .next u ∧ u.block.pend = [] ∧ u.block.fsm ≠ .faulted ∧ u.block.fault = s.block.fault ∧
      u.block.fb = s.block.fb) ∧
    ∀ (done rest : List Instr) (i : Instr), is = done ++ i :: rest →
      ∃ v t, runProgram done s = .next v ∧ exec i v = .next t ∧ t.block.pend ≠ [] ∧
        ∀ n, n ≤ t.block.pend.length → ∃ u, runSteps n t = .next u ∧ atMostOneRow u.block.lines.rows

/-! ### Memory -/

/-- R31: the address of a channel of a pixel, and its inverse. -/
def Obligations.FrameLayout : Prop :=
  (∀ (row col : Fin 8) (ch : Channel), (frameAddr row col ch).val = 3 * (8 * row.val + col.val) + ch.toFin.val ∧
    addrRow (frameAddr row col ch) = row ∧ addrCol (frameAddr row col ch) = col ∧
    addrChannel (frameAddr row col ch) = ch) ∧
  (∀ a : Fin 192, frameAddr (addrRow a) (addrCol a) (addrChannel a) = a) ∧
  Channel.r.toFin = 0 ∧ Channel.g.toFin = 1 ∧ Channel.b.toFin = 2

/-- R31 and R32: the pixel view reads the bytes of the pixel, and writing byte a changes exactly channel `a mod 3` of pixel
`a / 3`. -/
def Obligations.ByteWriteChangesOneChannel : Prop :=
  (∀ (m : Memory) (row col : Fin 8) (ch : Channel) (a : Fin 192),
    a.val = 24 * row.val + 3 * col.val + ch.toFin.val → (m.pixel row col).channel ch = m.read a) ∧
  ∀ (m : Memory) (a : Fin 192) (x : Byte) (row col : Fin 8) (ch : Channel),
    ((m.memWrite a.val 1 (Vector.replicate 1 x) (by omega)).pixel row col).channel ch =
      if row.val = a.val / 3 / 8 ∧ col.val = a.val / 3 % 8 ∧ ch.toFin.val = a.val % 3 then x
      else (m.pixel row col).channel ch

/-- R133: the exchange swaps all 192 bytes of FB and SCRATCH and resets CURSOR; nothing else changes. -/
def Obligations.ExchangeSwaps : Prop :=
  ∀ s : State,
    (∀ a : Fin 192, (exchange s).block.fb.read a = s.host.scratch[a] ∧
      (exchange s).host.scratch[a] = s.block.fb.read a) ∧
    (exchange s).host.cursor = 0 ∧
    exchange s = { s with
      block := { s.block with fb := (exchange s).block.fb }
      host := { s.host with scratch := (exchange s).host.scratch, cursor := 0 } }

/-- R132: outside a reset FB reads as before after every step, unless the step receives the 192nd byte of a frame, and then it
reads as that frame. The block never writes FB. -/
def Obligations.FrameChangesOnlyByExchange : Prop :=
  ∀ s t : State, step s = .next t → s.turn.resets = false →
    (∀ a, t.block.fb.read a = s.block.fb.read a) ∨
    (∃ x, s.turn = .receive x ∧ x ≠ 0xFF ∧ s.host.cursor.val = 191 ∧
      ∀ a : Fin 192, t.block.fb.read a = if a.val = 191 then x else s.host.scratch[a])

/-- Two frame buffers in canonical form that read alike are equal (log 6: the form is the model's choice). -/
def Obligations.CanonicalMemoriesEqual : Prop :=
  ∀ m n : Memory, m.wf = true → n.wf = true → (∀ a, m.read a = n.read a) → m = n

/-! ### The receiver -/

/-- R136: the marker resets CURSOR and is discarded; any other byte is stored at CURSOR, which advances; at 192 the frame is
exchanged, and CURSOR is 0 again. -/
def Obligations.ReceiveByte : Prop :=
  ∀ (x : Byte) (s : State),
    (x = 0xFF → receive x s = .next { s with host := { s.host with cursor := 0 } }) ∧
    (∀ h : s.host.cursor.val < 191, x ≠ 0xFF → receive x s = .next { s with
      host := { s.host with
        scratch := s.host.scratch.set s.host.cursor.val x (by omega)
        cursor := ⟨s.host.cursor.val + 1, by omega⟩ } }) ∧
    (s.host.cursor.val = 191 → x ≠ 0xFF →
      receive x s = .next (exchange { s with host := { s.host with scratch := s.host.scratch.set 191 x } }))

/-- A whole frame (R137, derived there from R136): a marker and then 192 bytes other than the marker leave exactly those bytes in
FB, the frame shown before in SCRATCH, and CURSOR at 0, wherever CURSOR stood; the rest of the block is untouched. -/
def Obligations.FrameReceived : Prop :=
  ∀ (s : State) (xs : Vector Byte 192), (∀ a : Fin 192, xs[a] ≠ 0xFF) →
    s.turns = Turn.receive 0xFF :: xs.toList.map Turn.receive →
    ∃ t, runSteps 193 s = .next t ∧ (∀ a : Fin 192, t.block.fb.read a = xs[a]) ∧
      (∀ a : Fin 192, t.host.scratch[a] = s.block.fb.read a) ∧ t.host.cursor = 0 ∧
      t.block = { s.block with fb := t.block.fb } ∧ t.turns = []

/-- A partial frame is never seen (R137, derived there from R136): after a marker and fewer than 192 other bytes FB is as before
and CURSOR counts them. -/
def Obligations.PartialFrameUnseen : Prop :=
  ∀ (s : State) (xs : List Byte), (∀ x ∈ xs, x ≠ 0xFF) → xs.length < 192 →
    s.turns = Turn.receive 0xFF :: xs.map Turn.receive →
    ∃ t, runSteps (1 + xs.length) s = .next t ∧ t.block = s.block ∧ t.host.cursor.val = xs.length ∧
      t.host.port = s.host.port ∧ t.turns = []

/-! ### The display task and the startup -/

/-- The turns that put words on the port. R138 in two turns (that it takes two is the model's choice, log 4): an activation puts
SEND_ROW IDX on a free port; while the word waits the task is held; once it is accepted IDX advances modulo 8 and the deadline by
1/480 s. R100 for other host code (the list of its words and when it is held are the model's choice, log 3): with the port free
and the task dormant the head of the list goes onto the port; otherwise nothing changes. Each is the step of its turn (log 2),
before the draw of log 9. -/
def Obligations.DisplayActivation : Prop :=
  (∀ s : State,
    (s.host.phase = .dormant → s.host.port = none →
      displayTurn s = { s with
        host := { s.host with port := some (0x2000 ||| BitVec.ofNat 16 (s.host.idx.val * 256)), phase := .held } }) ∧
    (∀ w, s.host.port = some w → displayTurn s = s) ∧
    (s.host.phase = .held → s.host.port = none →
      displayTurn s = { s with
        host := { s.host with
          idx := ⟨(s.host.idx.val + 1) % 8, Nat.mod_lt _ (by decide)⟩
          dl := s.host.dl + 1 / 480
          phase := .dormant } }) ∧
    (∀ w ws, s.host.phase = .dormant → s.host.port = none → s.host.cmds = w :: ws →
      presentTurn s = { s with host := { s.host with port := some w, cmds := ws } }) ∧
    (s.host.phase = .held ∨ s.host.port ≠ none ∨ s.host.cmds = [] → presentTurn s = s)) ∧
  ∀ s : State,
    (s.turn = .display → step s = .next (settle (displayTurn { s with turns := s.turns.tail }))) ∧
    (s.turn = .present → step s = .next (settle (presentTurn { s with turns := s.turns.tail })))

/-- Runs of the display task (R140, derived there from R138, R141 and R110): every step from a state of such a run has a next
state, and it is one again; so at most one row line is on at every instant, whatever bytes arrive in between. -/
def Obligations.TaskRunKept : Prop :=
  ∀ s : State, TaskRun s → ∃ t, step s = .next t ∧ TaskRun t

/-- The boot order (R183 steps 2 to 4): from any state whatever, the startup, the acceptance of INIT by the block, and the start
of the tasks lead into a run of the display task, with INIT's trace pending, IDX 0 and the first deadline T0. It holds from any
state because the startup turn replaces a waiting word and makes the task dormant, and the start of the tasks sets IDX, DL,
CURSOR and the phase at once: the model's choices (logs 13 and 14). -/
def Obligations.BootLeadsToTaskRun : Prop :=
  ∀ (s : State) (ts : List Turn), s.turns = [.startup, .block, .startTasks] ++ ts → (∀ t ∈ ts, Turn.ofTaskRun t) →
    ∃ t, runSteps 3 s = .next t ∧ TaskRun t ∧ t.block.pend = initTrace ∧ t.block.post = .bankInit ∧
      t.host.idx = 0 ∧ t.host.dl = Config.t0 ∧ t.host.cursor = 0 ∧ t.host.port = none

/-! ### The observer -/

/-- Sample order (R85, derived there from R81 and R23): the bytes of a list of SEND_BYTE calls are appended to SR in list order,
each MSB first, and no bank changes. -/
def Obligations.SentBytesSampled : Prop :=
  ∀ (edge : LatchEdge) (ls : Lines) (o : Observer) (xs : List Byte),
    o.observeAll edge ls (sendBytes xs) =
      { o with sr := o.sr ++ xs.flatMap fun x => (List.finRange 8).map fun k : Fin 8 => x.getLsbD (7 - k.val) }

/-- R23, and R27 for the clearing of SR: only a rising clock edge samples, and only the release of RST clears. -/
def Obligations.SamplesOnlyRisingEdge : Prop :=
  ∀ (edge : LatchEdge) (ls : Lines) (e : Event) (o : Observer),
    (o.observe edge ls e).sr =
      if e = .set .sck true ∧ ls.sck = false then o.sr ++ [ls.sda]
      else if e = .set .rst true ∧ ls.rst = false then []
      else o.sr

/-- R25 (derived there from R23, R24 and R92): after a whole latch pulse that starts with LAT at 1, the bank that SB chooses holds
the last bits of SR, whichever transition commits, and the other bank is as before. -/
def Obligations.LatchPulseCommits : Prop :=
  ∀ (edge : LatchEdge) (ls : Lines) (o : Observer), ls.lat = true →
    (ls.sb = true → 192 ≤ o.sr.length →
      (o.observeAll edge ls pulseLatch).out1.toList = o.sr.drop (o.sr.length - 192) ∧
      (o.observeAll edge ls pulseLatch).out0 = o.out0) ∧
    (ls.sb = false → 144 ≤ o.sr.length →
      (o.observeAll edge ls pulseLatch).out0.toList = o.sr.drop (o.sr.length - 144) ∧
      (o.observeAll edge ls pulseLatch).out1 = o.out1) ∧
    (o.observeAll edge ls pulseLatch).sr = o.sr

/-! ### Reset and the invariant -/

/-- The block's state after reset (R20; that LINEVEC is then 0x000C is the spec's own derivation there), and what the spec gives
of the observer (SR empty, R22) and of the host (CURSOR, R135, IDX and DL, R141). The free values and the model's own fields are
left out. -/
def Obligations.ResetValues : Prop :=
  State.reset.block.lines.get .sda = false ∧ State.reset.block.lines.get .sck = false ∧
  State.reset.block.lines.get .lat = true ∧ State.reset.block.lines.get .sb = true ∧
  State.reset.block.lines.get .rst = false ∧ (∀ r, State.reset.block.lines.get (.row r) = false) ∧
  State.reset.block.lines.linevec = 0x000C#13 ∧
  State.reset.block.fsm = .uninit ∧ State.reset.block.fsm.act = none ∧ State.reset.block.pend = [] ∧
  State.reset.block.post = .uninit ∧ State.reset.block.fault = { cause := .noFault, info := 0 } ∧
  (∀ a : Fin 192, State.reset.block.fb.read a = Config.initFrame[a]) ∧
  State.reset.chip.sr = [] ∧ State.reset.host.cursor = 0 ∧ State.reset.host.idx = 0 ∧
  State.reset.host.dl = Config.t0

/-- R180: a reset puts the block at those values at once, whatever the state was, busy and FAULTED included; the host's state
stays (log 13, the model's choice). -/
def Obligations.ResetFromAnywhere : Prop :=
  ∀ s : State, s.turn = .reset →
    ∃ t, step s = .next t ∧ t.block = State.reset.block ∧ t.host = s.host ∧ t.turns = s.turns.tail ∧
      (s.block.pend = [] → t.chip.sr = [])

/-- The block performs nothing on its own: idle, with no word on the port, its turn changes neither block nor host (R181, derived
there from R20 and R100), right after reset included. -/
def Obligations.IdleBlockWaits : Prop :=
  ∀ s : State, s.turn = .block → s.block.pend = [] → s.host.port = none →
    ∃ t, step s = .next t ∧ t.block = s.block ∧ t.host = s.host

/-- The invariant holds after reset. -/
def Obligations.ResetMeetsInv : Prop := MachineInv State.reset

/-- Every step of every agent keeps the invariant, from every state that meets it: the frame buffer's form, FAULT set exactly in
FAULTED, the clock low and the latch high between traces, the reset levels before INIT, standby high and the chip released
after it, no row on at BANK_INIT, and the last row sent on at ROW_ACTIVE. -/
def Obligations.StepKeepsInv : Prop :=
  ∀ s t : State, MachineInv s → step s = .next t → MachineInv t

/-- From a state that meets the invariant no step stops: contract violations are states of the block, and CURSOR never stands at
192 between bytes (R137, R165). -/
def Obligations.InvStepNeverStops : Prop :=
  ∀ s : State, MachineInv s → ∃ t, step s = .next t

/-! ### Views -/

/-- R18: the fields of STATUS. -/
def Obligations.StatusFields : Prop :=
  ∀ b : Block,
    b.status.extractLsb' 0 4 = b.fsm.code ∧ b.status.extractLsb' 4 4 = b.fault.cause.code ∧
    (b.status.getLsbD 8 = true ↔ b.pend ≠ []) ∧ b.status.extractLsb' 9 7 = 0

/-- R10: the 13 lines with their ids, and LINEVEC, whose bit l is the level of line l. -/
def Obligations.LinevecBits : Prop :=
  (∀ (ls : Lines) (l : Line), ls.linevec.getLsbD l.id.val = ls.get l) ∧
  (∀ l : Line, Line.ofId l.id = l) ∧ (∀ n : Fin 13, (Line.ofId n).id = n) ∧
  Line.id .sda = 0 ∧ Line.id .sck = 1 ∧ Line.id .lat = 2 ∧ Line.id .sb = 3 ∧ Line.id .rst = 4 ∧
  (∀ r : Fin 8, (Line.id (.row r)).val = 5 + r.val)

/-! ### Gamma and the primitives -/

/-- R71: GAMMA is non-decreasing. -/
def Obligations.GammaMonotone : Prop :=
  ∀ x y : Byte, x ≤ y → Config.gamma x ≤ Config.gamma y

/-- R72 (the spec's own derivation from "non-linear"): GAMMA is not injective, with two neighbours alike. -/
def Obligations.GammaNotInjective : Prop :=
  ∃ x : Byte, x.toNat ≤ 254 ∧ Config.gamma x = Config.gamma (x + 1)

/-- R80, R81: SEND_BYTE is eight bit cells, MSB first, 32 events; after it SDA holds bit 0 and SCK is 0, and no other line has
changed. -/
def Obligations.SendByteCells : Prop :=
  ∀ x : Byte,
    sendByte x = ((List.finRange 8).flatMap fun k : Fin 8 =>
      [.set .sda (x.getLsbD (7 - k.val)), .set .sck false, .set .sck true, .set .sck false]) ∧
    (sendByte x).length = 32 ∧
    ∀ ls : Lines, ls.performAll (sendByte x) = { ls with sda := x.getLsbD 0, sck := false }

/-- R93: ROW_SELECT of a row in 0..7 writes one line, and of any other integer raises ROW_RANGE. -/
def Obligations.RowSelectRange : Prop :=
  ∀ (r : Int) (v : Bool),
    (∀ k : Fin 8, r = k.val → rowSelect r v = .ok [.set (.row k) v]) ∧
    (r < 0 ∨ 7 < r → rowSelect r v = .error .rowRange)

/-! ### Image content -/

/-- R147 (derived there from R145): for a scalar that is not negative, rounding and then clamping equals clamping and then
rounding, an infinite product clamped as a value beyond the range (log 20, the model's choice). -/
def Obligations.ScaleRoundsClamped : Prop :=
  ∀ (x : Byte) (q s : Rat), 0 ≤ q → fl32 q = .finite s →
    ∃ y, scale x (.finite q) = .ok y ∧
      ((y.toNat : Int) =
        match fl32 ((x.toNat : Rat) * s) with
        | .finite v => roundHalfAway (min 255 (max 0 v))
        | .inf _ => 255
        | .nan => 0)

/-- R148 with R145 and R146: every cell of a gradient has a value, channel by channel the binary32 product with
`fl32(1 / (1 + row * row + col))`, rounded and clamped; cell (0, 0) is the colour itself; and the gradient image holds these
cells at their addresses. R144: an image holds its cells at their addresses, the uniform fill the colour everywhere, the default
image zero everywhere. Binary32 values are exact rationals (log 20). -/
def Obligations.GradientCells : Prop :=
  (∀ c : Color, gradientCell c 0 0 = .ok c) ∧
  (∀ (c : Color) (row col : Fin 8), ∃ (k : Color) (s : Rat),
    gradientCell c row col = .ok k ∧
    fl32 (1 / ((1 + row.val * row.val + col.val : Nat) : Rat)) = .finite s ∧
    ∀ ch : Channel, ∃ v : Rat, fl32 (((c.channel ch).toNat : Rat) * s) = .finite v ∧
      (((k.channel ch).toNat : Nat) : Int) = min 255 (max 0 (roundHalfAway v))) ∧
  (∀ c : Color, ∃ image, gradientImage c = .ok image ∧
    ∀ row col : Fin 8, ∃ k, gradientCell c row col = .ok k ∧
      ∀ ch : Channel, image[frameAddr row col ch] = k.channel ch) ∧
  (∀ (cell : Fin 8 → Fin 8 → Color) (row col : Fin 8) (ch : Channel),
    (imageBytes cell)[frameAddr row col ch] = (cell row col).channel ch) ∧
  (∀ (c : Color) (row col : Fin 8) (ch : Channel), (uniformImage c)[frameAddr row col ch] = c.channel ch) ∧
  ∀ a : Fin 192, defaultImage[a] = 0

/-- R145: a NaN or infinite scalar is refused, for every byte (that the reciprocal of zero and of a non-finite scalar is refused
too is the model's choice, log 21). -/
def Obligations.NonFiniteRefused : Prop :=
  ∀ (x : Byte) (n : Bool),
    scale x .nan = .error .nonFiniteScalar ∧ scale x (.inf n) = .error .nonFiniteScalar ∧
    scale x (reciprocal (.finite 0)) = .error .nonFiniteScalar ∧
    scale x (reciprocal (.inf n)) = .error .nonFiniteScalar ∧ scale x (reciprocal .nan) = .error .nonFiniteScalar
end

