-- ==== Sys2Proof/Laws/Lines.lean ====
section
/-! SUPPORT. Laws of the lines: a write is read back and reaches no other line (R11), and a list of events is performed in
order (R184). -/

namespace Sys2Proof.Laws

open Sys2Proof.Machine

/-- A line reads as it was written. -/
@[simp] theorem lines_get_set_same (ls : Lines) (l : Line) (v : Bool) : (ls.set l v).get l = v := by
  cases l <;> simp [Lines.set, Lines.get]

/-- No event writes two lines (R11). -/
theorem lines_get_set_other (ls : Lines) {l m : Line} (v : Bool) (h : m ≠ l) : (ls.set l v).get m = ls.get m := by
  cases l <;> cases m <;> simp_all [Lines.set, Lines.get, Vector.getElem_set]
  omega

@[simp] theorem perform_set (ls : Lines) (l : Line) (v : Bool) : ls.perform (.set l v) = ls.set l v := rfl
@[simp] theorem perform_delay (ls : Lines) (ms : Nat) : ls.perform (.delay ms) = ls := rfl
@[simp] theorem performAll_nil (ls : Lines) : ls.performAll [] = ls := rfl
@[simp] theorem performAll_cons (ls : Lines) (e : Event) (es : List Event) :
    ls.performAll (e :: es) = (ls.perform e).performAll es := rfl
theorem performAll_append (ls : Lines) (es fs : List Event) :
    ls.performAll (es ++ fs) = (ls.performAll es).performAll fs := List.foldl_append

/-- ROW_SELECT of a row in 0..7 is one line write (R93). -/
@[simp] theorem rowSelect_of_row (r : Fin 8) (v : Bool) : rowSelect (r.val : Int) v = .ok [.set (.row r) v] := by
  have h : (0 : Int) ≤ (r.val : Int) ∧ (r.val : Int) ≤ 7 := by omega
  simp [rowSelect, h]

/-- The events of ROW_TRACE, which no row in 0..7 can make fault (R93, R108). -/
def rowEvents (g : Byte → Byte) (r : Fin 8) (p : Vector Byte 24) : List Event :=
  sendBytes ((rowStream g p).take Config.deactAfterBytes)
    ++ [.set (.row (prevRow r)) false]
    ++ sendBytes ((rowStream g p).drop Config.deactAfterBytes)
    ++ pulseLatch
    ++ [.set (.row r) true]

/-- ROW_TRACE never faults on a row in 0..7 (R108, "`ROW_SELECT` inside cannot fault"). -/
theorem rowTrace_eq (g : Byte → Byte) (r : Fin 8) (p : Vector Byte 24) :
    rowTrace g r p = .ok (rowEvents g r p) := by
  simp only [rowTrace, rowSelect_of_row]
  rfl

/-- The traces of several rows are the rows' events one after another (R115). -/
theorem rowsTrace_eq (g : Byte → Byte) (f : Vector Byte 192) (rs : List (Fin 8)) :
    rowsTrace g f rs = .ok (rs.flatMap fun r => rowEvents g r (rowOfFrame f r)) := by
  induction rs with
  | nil => rfl
  | cons r rs ih =>
    simp only [rowsTrace, rowTrace_eq, ih]
    rfl

/-- TRACE(SEND_ROW r) for a row in 0..7 (R108). -/
theorem sendRowTrace_eq (g : Byte → Byte) (r : BitVec 8) (h : r.toNat < 8) (fb : Memory) :
    sendRowTrace g r fb = .ok (rowEvents g ⟨r.toNat, h⟩ (fb.rowBytes ⟨r.toNat, h⟩), .rowActive ⟨r.toNat, h⟩) := by
  simp only [sendRowTrace, rowIndex, dif_pos h, rowTrace_eq]
  rfl

/-- TRACE(DISPLAY_FRAME) (R115). -/
theorem displayTrace_eq (g : Byte → Byte) (fb : Memory) :
    displayTrace g fb =
      .ok ((List.finRange 8).flatMap fun r => rowEvents g r (rowOfFrame fb.frameBytes r), .rowActive 7) := by
  simp only [displayTrace, rowsTrace_eq]
  rfl

end Sys2Proof.Laws
end

