-- ==== Sys2Proof/Laws/Accept.lean ====
section
/-! SUPPORT. All that an acceptance can do (R100), and that exec never stops. -/

namespace Sys2Proof.Laws

open Sys2Proof.Machine

theorem canAccept_iff (b : Block) : b.canAccept = true ↔ b.pend = [] ∧ b.fsm ≠ .faulted := by
  simp [Block.canAccept, Block.idle]

/-- All that the acceptance of a command can do: the host is held, or a fault is entered, or the trace starts (R100). -/
theorem accept_cases {i : Instr} {trace : Memory → Except FaultCause (List Event × Fsm)} {s t : State}
    (h : accept i trace s = .next t) :
    (s.block.canAccept = false ∧ t = s) ∨
    (s.block.canAccept = true ∧ ∃ f, (check (.ok i) s.block.fsm = some f ∨
        (check (.ok i) s.block.fsm = none ∧ trace s.block.fb = .error f)) ∧ t = raise f (encode i) (takeWord s)) ∨
    (s.block.canAccept = true ∧ check (.ok i) s.block.fsm = none ∧
      ∃ es post, trace s.block.fb = .ok (es, post) ∧ t = startTrace es post (takeWord s)) := by
  unfold accept at h
  split at h
  · rename_i hc
    split at h
    · rename_i f hf
      cases h
      exact .inr (.inl ⟨hc, f, .inl hf, rfl⟩)
    · rename_i hf
      split at h
      · rename_i f ht
        cases h
        exact .inr (.inl ⟨hc, f, .inr ⟨hf, ht⟩, rfl⟩)
      · rename_i es post ht
        cases h
        exact .inr (.inr ⟨hc, hf, es, post, ht, rfl⟩)
  · rename_i hc
    cases h
    exact .inl ⟨by simpa using hc, rfl⟩

/-- An acceptance always has a next state. -/
theorem accept_next (i : Instr) (trace : Memory → Except FaultCause (List Event × Fsm)) (s : State) :
    ∃ t, accept i trace s = .next t := by
  unfold accept
  repeat' split
  all_goals exact ⟨_, rfl⟩

/-- A command that passes its checks starts its trace (R100). -/
theorem accept_of_ok {i : Instr} {trace : Memory → Except FaultCause (List Event × Fsm)} {s : State}
    {es : List Event} {post : Fsm} (hc : s.block.canAccept = true) (hk : check (.ok i) s.block.fsm = none)
    (ht : trace s.block.fb = .ok (es, post)) : accept i trace s = .next (startTrace es post (takeWord s)) := by
  simp [accept, hc, hk, ht]

/-- A command that fails a check enters the fault (R100, R162). -/
theorem accept_of_fault {i : Instr} {trace : Memory → Except FaultCause (List Event × Fsm)} {s : State} {f : FaultCause}
    (hc : s.block.canAccept = true) (hk : check (.ok i) s.block.fsm = some f) :
    accept i trace s = .next (raise f (encode i) (takeWord s)) := by
  simp [accept, hc, hk]

/-- A block that cannot accept holds the host (R100, R164). -/
theorem accept_of_held {i : Instr} {trace : Memory → Except FaultCause (List Event × Fsm)} {s : State}
    (hc : s.block.canAccept = false) : accept i trace s = .next s := by
  simp [accept, hc]

/-- The acceptance of an illegal word enters ILLEGAL_COMMAND, or holds the host (R55, R161). -/
theorem acceptIllegal_eq (why : Illegal) (w : Word) (s : State) :
    acceptIllegal why w s = .next (if s.block.canAccept then raise .illegalCommand w (takeWord s) else s) := by
  unfold acceptIllegal
  split <;> rfl

/-- The meaning of every command has a next state from every state. -/
theorem exec_next (i : Instr) (s : State) : ∃ t, exec i s = .next t := by
  cases i with
  | init => exact accept_next .init (fun _ => .ok (initTrace, .bankInit)) s
  | sendRow r => exact accept_next (.sendRow r) (sendRowTrace Config.gamma r) s
  | displayFrame => exact accept_next .displayFrame (displayTrace Config.gamma) s

/-- A block that cannot accept holds the host, whatever the command (R100, R164). -/
theorem exec_of_held (i : Instr) {s : State} (hc : s.block.canAccept = false) : exec i s = .next s := by
  cases i with
  | init =>
    change accept .init (fun _ => .ok (initTrace, .bankInit)) s = _
    exact accept_of_held hc
  | sendRow r =>
    change accept (.sendRow r) (sendRowTrace Config.gamma r) s = _
    exact accept_of_held hc
  | displayFrame =>
    change accept .displayFrame (displayTrace Config.gamma) s = _
    exact accept_of_held hc

/-- CHECK passes SEND_ROW only with a row in 0..7 (R163). -/
theorem row_of_check {r : BitVec 8} {fsm : Fsm} (h : check (.ok (.sendRow r)) fsm = none) : r.toNat < 8 := by
  by_contra hr
  have h7 : r.toNat > 7 := by omega
  simp only [check, h7, if_true] at h
  split_ifs at h

/-- All that the meaning of a command can do: the host is held, or CHECK's fault is entered, or a trace that is not empty
starts (R100). -/
theorem exec_cases {i : Instr} {s t : State} (h : exec i s = .next t) :
    (s.block.canAccept = false ∧ t = s) ∨
    (s.block.canAccept = true ∧ ∃ f, check (.ok i) s.block.fsm = some f ∧ t = raise f (encode i) (takeWord s)) ∨
    (s.block.canAccept = true ∧ check (.ok i) s.block.fsm = none ∧
      ∃ es post, es ≠ [] ∧ t = startTrace es post (takeWord s)) := by
  cases i with
  | init =>
    change accept .init (fun _ => .ok (initTrace, .bankInit)) s = _ at h
    rcases accept_cases h with h | ⟨hc, f, hf | ⟨-, hf⟩, rfl⟩ | ⟨hc, hk, es, post, ht, rfl⟩
    · exact .inl h
    · exact .inr (.inl ⟨hc, f, hf, rfl⟩)
    · cases hf
    · cases ht
      exact .inr (.inr ⟨hc, hk, _, _, by simp [initTrace, delay], rfl⟩)
  | sendRow r =>
    change accept (.sendRow r) (sendRowTrace Config.gamma r) s = _ at h
    rcases accept_cases h with h | ⟨hc, f, hf | ⟨hk, hf⟩, rfl⟩ | ⟨hc, hk, es, post, ht, rfl⟩
    · exact .inl h
    · exact .inr (.inl ⟨hc, f, hf, rfl⟩)
    · rw [sendRowTrace_eq _ _ (row_of_check hk)] at hf
      cases hf
    · rw [sendRowTrace_eq _ _ (row_of_check hk)] at ht
      cases ht
      exact .inr (.inr ⟨hc, hk, _, _, by simp [rowEvents], rfl⟩)
  | displayFrame =>
    change accept .displayFrame (displayTrace Config.gamma) s = _ at h
    rcases accept_cases h with h | ⟨hc, f, hf | ⟨-, hf⟩, rfl⟩ | ⟨hc, hk, es, post, ht, rfl⟩
    · exact .inl h
    · exact .inr (.inl ⟨hc, f, hf, rfl⟩)
    · rw [displayTrace_eq] at hf
      cases hf
    · rw [displayTrace_eq] at ht
      cases ht
      exact .inr (.inr ⟨hc, hk, _, _, by simp [List.finRange_succ, rowEvents], rfl⟩)

end Sys2Proof.Laws
end

