-- ==== Sys2Proof/Laws/Image.lean ====
section
/-! SUPPORT. What the image functions can do: powers of two, the rounding to binary32 of a value that is not negative, and an
image's byte at the address of a cell. -/

namespace Sys2Proof.Laws

open Sys2Proof.Machine

/-! ### Binary32 -/

theorem pow2_eq_zpow (e : Int) : pow2 e = (2 : Rat) ^ e := by
  unfold pow2
  split
  · rename_i h
    obtain ⟨n, rfl⟩ := Int.eq_ofNat_of_zero_le h
    simp
  · rename_i h
    obtain ⟨n, hn⟩ := Int.eq_ofNat_of_zero_le (show 0 ≤ -e by omega)
    obtain rfl : e = -(n : Int) := by omega
    simp

theorem pow2_pos (e : Int) : 0 < pow2 e := by
  rw [pow2_eq_zpow]
  positivity

/-- Rounding to the even integer adds at most one. -/
theorem roundHalfEven_le (q : Rat) : (roundHalfEven q : Rat) ≤ q + 1 := by
  have h : (q.floor : Rat) ≤ q := Int.floor_le q
  have key : roundHalfEven q ≤ q.floor + 1 := by
    simp only [roundHalfEven]
    split
    · omega
    · split
      · exact le_rfl
      · split <;> omega
  have : (roundHalfEven q : Rat) ≤ (q.floor : Rat) + 1 := by exact_mod_cast key
  linarith

theorem roundHalfEven_nonneg {q : Rat} (h : 0 ≤ q) : 0 ≤ roundHalfEven q := by
  have h0 : 0 ≤ q.floor := Int.floor_nonneg.2 h
  simp only [roundHalfEven]
  split
  · exact h0
  · split
    · omega
    · split <;> omega

theorem roundBinary32_nonneg {q : Rat} (h : 0 ≤ q) : 0 ≤ roundBinary32 q := by
  have hp := pow2_pos (max (binaryExponent q - 23) (-149))
  have hr := roundHalfEven_nonneg (div_nonneg h hp.le)
  simp only [roundBinary32]
  positivity

/-- `fl32` of a value that is not negative (R145). -/
theorem fl32_of_nonneg {q : Rat} (h : 0 ≤ q) :
    fl32 q = if q = 0 then .finite 0
      else if pow2 128 ≤ roundBinary32 q then .inf false else .finite (roundBinary32 q) := by
  have hn : ¬ q < 0 := not_lt.2 h
  simp [fl32, hn]

/-- The exponent of a value up to 1024 is at most 11. -/
theorem binaryExponent_le {q : Rat} (h0 : 0 < q) (h : q ≤ 1024) : binaryExponent q ≤ 11 := by
  have hnum : 0 < q.num := Rat.num_pos.2 h0
  have hden : (0 : Rat) < q.den := by exact_mod_cast q.den_pos
  have hle : q.num ≤ 1024 * (q.den : Int) := by
    have hq : (q.num : Rat) = q * q.den := (Rat.mul_den_eq_num q).symm
    have : (q.num : Rat) ≤ 1024 * (q.den : Rat) := by rw [hq]; exact mul_le_mul_of_nonneg_right h hden.le
    exact_mod_cast this
  have hlog : Nat.log2 q.num.toNat ≤ Nat.log2 q.den + 10 := by
    have hlt : q.num.toNat < 2 ^ (Nat.log2 q.den + 11) := by
      have := Nat.lt_log2_self (n := q.den)
      rw [pow_add]
      rw [pow_succ] at this
      omega
    have := (Nat.log2_lt (by omega)).2 hlt
    omega
  simp only [binaryExponent]
  split <;> omega

/-- A value in 0..1024 has a finite binary32 value, at most one more. -/
theorem fl32_finite {q : Rat} (h0 : 0 ≤ q) (h : q ≤ 1024) : ∃ v, fl32 q = .finite v ∧ 0 ≤ v ∧ v ≤ q + 1 := by
  rw [fl32_of_nonneg h0]
  by_cases hz : q = 0
  · exact ⟨0, by rw [if_pos hz], le_rfl, by linarith⟩
  have he := binaryExponent_le (lt_of_le_of_ne h0 (Ne.symm hz)) h
  have hp := pow2_pos (max (binaryExponent q - 23) (-149))
  have hq : pow2 (max (binaryExponent q - 23) (-149)) ≤ 1 := by
    rw [pow2_eq_zpow]
    exact zpow_le_one_of_nonpos₀ (by norm_num) (by omega)
  have hb : roundBinary32 q ≤ q + 1 := by
    have hr := mul_le_mul_of_nonneg_right
      (roundHalfEven_le (q / pow2 (max (binaryExponent q - 23) (-149)))) hp.le
    rw [add_mul, div_mul_cancel₀ _ hp.ne', one_mul] at hr
    exact hr.trans (by linarith)
  have hbig : (2048 : Rat) < pow2 128 := by rw [pow2_eq_zpow]; norm_num
  exact ⟨roundBinary32 q, by rw [if_neg hz, if_neg (by linarith)], roundBinary32_nonneg h0, hb⟩

/-! ### Images -/

@[simp] theorem addrRow_frameAddr (row col : Fin 8) (ch : Channel) : addrRow (frameAddr row col ch) = row := by
  cases ch <;> apply Fin.ext <;> simp [addrRow, frameAddr, Channel.toFin] <;> omega

@[simp] theorem addrCol_frameAddr (row col : Fin 8) (ch : Channel) : addrCol (frameAddr row col ch) = col := by
  cases ch <;> apply Fin.ext <;> simp [addrCol, frameAddr, Channel.toFin] <;> omega

@[simp] theorem addrChannel_frameAddr (row col : Fin 8) (ch : Channel) : addrChannel (frameAddr row col ch) = ch := by
  cases ch <;> revert row col <;> decide +kernel

/-- Byte a of an image is the channel of the cell of that address (R31, R144). -/
@[simp] theorem getElem_imageBytes (cell : Fin 8 → Fin 8 → Color) (a : Nat) (h : a < 192) :
    (imageBytes cell)[a] = (cell (addrRow ⟨a, h⟩) (addrCol ⟨a, h⟩)).channel (addrChannel ⟨a, h⟩) := by
  simp [imageBytes]

end Sys2Proof.Laws
end

