-- ==== Sys2Proof/Laws/Memory.lean ====
section
/-! SUPPORT. Laws of the frame buffer: what a write leaves to read, and that every memory operation keeps the canonical
form. -/

namespace Sys2Proof.Laws

open Sys2Proof.Machine

/-- Reading through the cells that differ from the unlisted bytes, over any part of the addresses. -/
theorem lookup_filterMap (v : Vector Byte 192) (a : Fin 192) (as : List (Fin 192)) :
    (Memory.lookup a.val (as.filterMap fun b => if v[b] = Memory.unlisted b then none else some (b.val, v[b]))).getD
      (Memory.unlisted a) = if a ∈ as then v[a] else Memory.unlisted a := by
  induction as with
  | nil => rfl
  | cons b bs ih =>
    rw [List.filterMap_cons]
    by_cases hb : v[b] = Memory.unlisted b
    · simp only [hb, if_true, ih]
      by_cases hab : a = b
      · subst hab
        simp [hb]
      · simp [hab]
    · simp only [hb, if_false, Memory.lookup]
      by_cases hab : a = b
      · subst hab
        simp
      · have hv : b.val ≠ a.val := fun h => hab (Fin.ext h.symm)
        simp only [hv, if_false, ih]
        simp [hab]

/-- A frame reads back as it was written. -/
@[simp] theorem read_ofBytes (v : Vector Byte 192) (a : Fin 192) : (Memory.ofBytes v).read a = v[a] := by
  have h := lookup_filterMap v a (List.finRange 192)
  simpa [Memory.read, Memory.ofBytes] using h

/-- The cells of a frame are in canonical form. -/
@[simp] theorem ofBytes_wf (v : Vector Byte 192) : (Memory.ofBytes v).wf = true := by
  simp only [Memory.wf, Memory.ofBytes, Bool.and_eq_true, List.all_eq_true]
  refine ⟨decide_eq_true ?_, ?_⟩
  · refine List.Pairwise.filterMap _ ?_ (List.pairwise_lt_finRange 192)
    intro a b hab c hc d hd
    have cell : ∀ (e : Fin 192) (x : Host.Cell),
        (if v[e] = Memory.unlisted e then none else some (e.val, v[e])) = some x → x.1 = e.val := by
      intro e x hx
      split at hx
      · cases hx
      · cases hx
        rfl
    rw [cell a c hc, cell b d hd]
    exact hab
  · intro c hc
    obtain ⟨a, -, ha⟩ := List.mem_filterMap.mp hc
    by_cases h : v[a] = Memory.unlisted a
    · simp [h] at ha
    · simp only [h, if_false, Option.some.injEq] at ha
      subst ha
      simpa [Memory.cellWf] using h

/-- MemWrite keeps the canonical form. -/
@[simp] theorem memWrite_wf (m : Memory) (a n : Nat) (v : Vector Byte n) (h : a + n ≤ 192) :
    (m.memWrite a n v h).wf = true := ofBytes_wf _

/-- What MemWrite leaves to read: the n bytes written, and every other byte as before (R5). -/
theorem read_memWrite (m : Memory) (a n : Nat) (v : Vector Byte n) (h : a + n ≤ 192) (b : Fin 192) :
    (m.memWrite a n v h).read b =
      if hb : a ≤ b.val ∧ b.val < a + n then v[b.val - a]'(by omega) else m.read b := by
  simp [Memory.memWrite]

/-- The memory after reset is in canonical form. -/
theorem reset_memory_wf : State.reset.block.fb.wf = true := rfl

/-- An address that no cell lists reads as INIT_FRAME (R20). -/
@[simp] theorem read_empty (a : Fin 192) : ({ cells := [] } : Memory).read a = Config.initFrame[a] := rfl

theorem bytes_eq (m : Memory) : m.bytes = Vector.ofFn m.read := by
  unfold Memory.bytes
  rfl

/-- Byte a of the frame is what address a reads as. -/
@[simp] theorem getElem_bytes (m : Memory) (a : Nat) (h : a < 192) : m.bytes[a] = m.read ⟨a, h⟩ := by
  rw [bytes_eq, Vector.getElem_ofFn]

/-- Byte k of the row read of row r (R35). -/
@[simp] theorem getElem_rowBytes (m : Memory) (r : Fin 8) (k : Nat) (h : k < 24) :
    (m.rowBytes r)[k] = m.read ⟨24 * r.val + k, by omega⟩ := by
  simp [Memory.rowBytes, Memory.memRead]

/-- Row r of the frame read is the row read of row r (R35, R115). -/
@[simp] theorem rowOfFrame_frameBytes (m : Memory) (r : Fin 8) : rowOfFrame m.frameBytes r = m.rowBytes r := by
  ext k hk
  simp [rowOfFrame, Memory.frameBytes, Memory.memRead]

end Sys2Proof.Laws
end

