-- ==== Sys2Proof/Laws/Observer.lean ====
section
/-! SUPPORT. Laws of the observer (R22 to R27): what a latched bank holds, and what each kind of event does to SR. -/

namespace Sys2Proof.Laws

open Sys2Proof.Machine

/-- A latched position holds the sampled bit, where SR is long enough (R24). -/
theorem getElem_lastBits_of_le (n : Nat) (sr : List Bool) (draw k : Nat) (hk : k < n) (h : n ≤ sr.length) :
    (lastBits n sr draw)[k] = sr[sr.length + k - n]'(by omega) := by
  have h1 : n ≤ sr.length + k := by omega
  have h2 : sr.length + k - n < sr.length := by omega
  simp [lastBits, h1, h2]

/-- When SR ends in n bits, a bank of n bits holds exactly those (R24, R85). -/
theorem lastBits_append (n : Nat) (sr bits : List Bool) (draw : Nat) (h : bits.length = n) :
    (lastBits n (sr ++ bits) draw).toList = bits := by
  refine List.ext_getElem (by simp [h]) fun k hk1 hk2 => ?_
  rw [Vector.getElem_toList, getElem_lastBits_of_le n _ draw k (by simpa using hk1) (by simp [h])]
  rw [List.getElem_append_right (by simp; omega)]
  congr 1
  simp
  omega

@[simp] theorem observe_delay (edge : LatchEdge) (ls : Lines) (ms : Nat) (o : Observer) :
    o.observe edge ls (.delay ms) = o := rfl
@[simp] theorem observe_sda (edge : LatchEdge) (ls : Lines) (v : Bool) (o : Observer) :
    o.observe edge ls (.set .sda v) = o := rfl
@[simp] theorem observe_sb (edge : LatchEdge) (ls : Lines) (v : Bool) (o : Observer) :
    o.observe edge ls (.set .sb v) = o := rfl
@[simp] theorem observe_row (edge : LatchEdge) (ls : Lines) (r : Fin 8) (v : Bool) (o : Observer) :
    o.observe edge ls (.set (.row r) v) = o := rfl
@[simp] theorem observe_clock_low (edge : LatchEdge) (ls : Lines) (o : Observer) :
    o.observe edge ls (.set .sck false) = o := rfl

theorem observeAll_append (edge : LatchEdge) (ls : Lines) (es fs : List Event) (o : Observer) :
    o.observeAll edge ls (es ++ fs) = (o.observeAll edge ls es).observeAll edge (ls.performAll es) fs := by
  induction es generalizing ls o with
  | nil => rfl
  | cons e es ih => exact ih _ _

end Sys2Proof.Laws
end

