-- ==== Sys2Proof/Laws/PerInstr.lean ====
section
/-! SUPPORT. One fact per instruction: its word matches its row of the opcode table (R53). -/

namespace Sys2Proof.Laws

/-- The match of an instruction's row of the table (R53). -/
def tableMatch : Instr → Word
  | .init => 0x1000
  | .sendRow _ => 0x2000
  | .displayFrame => 0x3000

/-- The mask of an instruction's row of the table (R53). -/
def tableMask : Instr → Word
  | .init => 0xFFFF
  | .sendRow _ => 0xF0FF
  | .displayFrame => 0xFFFF

/-- The word of a well-formed instruction has the fixed bits of its row. -/
def TableMatch.Statement (i : Instr) : Prop := i.wellFormed = true → encode i &&& tableMask i = tableMatch i

theorem TableMatch.init : TableMatch.Statement .init := fun _ => by decide

theorem TableMatch.sendRow (r : BitVec 8) : TableMatch.Statement (.sendRow r) := by
  unfold TableMatch.Statement
  revert r
  decide +kernel

theorem TableMatch.displayFrame : TableMatch.Statement .displayFrame := fun _ => by decide

end Sys2Proof.Laws
end

