-- ==== Sys2Proof/Laws/State.lean ====
section
/-! SUPPORT. The field of each state update, so that no later proof unfolds one. -/

namespace Sys2Proof.Laws

open Sys2Proof.Machine

/-! ### Fault entry (R162) -/

@[simp] theorem raise_lines (f : FaultCause) (w : Word) (s : State) : (raise f w s).block.lines = s.block.lines := rfl
@[simp] theorem raise_fsm (f : FaultCause) (w : Word) (s : State) : (raise f w s).block.fsm = .faulted := rfl
@[simp] theorem raise_fault (f : FaultCause) (w : Word) (s : State) :
    (raise f w s).block.fault = { cause := f, info := w } := rfl
@[simp] theorem raise_pend (f : FaultCause) (w : Word) (s : State) : (raise f w s).block.pend = [] := rfl
@[simp] theorem raise_post (f : FaultCause) (w : Word) (s : State) : (raise f w s).block.post = s.block.post := rfl
@[simp] theorem raise_fb (f : FaultCause) (w : Word) (s : State) : (raise f w s).block.fb = s.block.fb := rfl
@[simp] theorem raise_chip (f : FaultCause) (w : Word) (s : State) : (raise f w s).chip = s.chip := rfl
@[simp] theorem raise_host (f : FaultCause) (w : Word) (s : State) : (raise f w s).host = s.host := rfl
@[simp] theorem raise_turns (f : FaultCause) (w : Word) (s : State) : (raise f w s).turns = s.turns := rfl

/-! ### The word leaves the port (R100) -/

@[simp] theorem takeWord_block (s : State) : (takeWord s).block = s.block := rfl
@[simp] theorem takeWord_chip (s : State) : (takeWord s).chip = s.chip := rfl
@[simp] theorem takeWord_turns (s : State) : (takeWord s).turns = s.turns := rfl
@[simp] theorem takeWord_port (s : State) : (takeWord s).host.port = none := rfl
@[simp] theorem takeWord_cmds (s : State) : (takeWord s).host.cmds = s.host.cmds := rfl
@[simp] theorem takeWord_scratch (s : State) : (takeWord s).host.scratch = s.host.scratch := rfl
@[simp] theorem takeWord_cursor (s : State) : (takeWord s).host.cursor = s.host.cursor := rfl
@[simp] theorem takeWord_idx (s : State) : (takeWord s).host.idx = s.host.idx := rfl
@[simp] theorem takeWord_dl (s : State) : (takeWord s).host.dl = s.host.dl := rfl
@[simp] theorem takeWord_phase (s : State) : (takeWord s).host.phase = s.host.phase := rfl

/-! ### The trace starts (R100) -/

@[simp] theorem startTrace_lines (es : List Event) (p : Fsm) (s : State) :
    (startTrace es p s).block.lines = s.block.lines := rfl
@[simp] theorem startTrace_fsm (es : List Event) (p : Fsm) (s : State) :
    (startTrace es p s).block.fsm = s.block.fsm := rfl
@[simp] theorem startTrace_fault (es : List Event) (p : Fsm) (s : State) :
    (startTrace es p s).block.fault = s.block.fault := rfl
@[simp] theorem startTrace_pend (es : List Event) (p : Fsm) (s : State) : (startTrace es p s).block.pend = es := rfl
@[simp] theorem startTrace_post (es : List Event) (p : Fsm) (s : State) : (startTrace es p s).block.post = p := rfl
@[simp] theorem startTrace_fb (es : List Event) (p : Fsm) (s : State) : (startTrace es p s).block.fb = s.block.fb := rfl
@[simp] theorem startTrace_chip (es : List Event) (p : Fsm) (s : State) : (startTrace es p s).chip = s.chip := rfl
@[simp] theorem startTrace_host (es : List Event) (p : Fsm) (s : State) : (startTrace es p s).host = s.host := rfl
@[simp] theorem startTrace_turns (es : List Event) (p : Fsm) (s : State) : (startTrace es p s).turns = s.turns := rfl

/-! ### The event step (R101) -/

@[simp] theorem eventStep_lines (e : Event) (rest : List Event) (s : State) :
    (eventStep e rest s).block.lines = s.block.lines.perform e := rfl
@[simp] theorem eventStep_fsm (e : Event) (rest : List Event) (s : State) :
    (eventStep e rest s).block.fsm = if rest.isEmpty then s.block.post else s.block.fsm := rfl
@[simp] theorem eventStep_fault (e : Event) (rest : List Event) (s : State) :
    (eventStep e rest s).block.fault = s.block.fault := rfl
@[simp] theorem eventStep_pend (e : Event) (rest : List Event) (s : State) :
    (eventStep e rest s).block.pend = rest := rfl
@[simp] theorem eventStep_post (e : Event) (rest : List Event) (s : State) :
    (eventStep e rest s).block.post = s.block.post := rfl
@[simp] theorem eventStep_fb (e : Event) (rest : List Event) (s : State) :
    (eventStep e rest s).block.fb = s.block.fb := rfl
@[simp] theorem eventStep_chip (e : Event) (rest : List Event) (s : State) :
    (eventStep e rest s).chip = s.chip.observe Config.latchEdge s.block.lines e := rfl
@[simp] theorem eventStep_host (e : Event) (rest : List Event) (s : State) :
    (eventStep e rest s).host = s.host := rfl
@[simp] theorem eventStep_turns (e : Event) (rest : List Event) (s : State) :
    (eventStep e rest s).turns = s.turns := rfl

/-! ### Reset of the block (R180) -/

@[simp] theorem resetBlock_block (s : State) : (resetBlock s).block = Block.reset := rfl
@[simp] theorem resetBlock_chip (s : State) : (resetBlock s).chip = s.chip.afterReset (!s.block.idle) := rfl
@[simp] theorem resetBlock_host (s : State) : (resetBlock s).host = s.host := rfl
@[simp] theorem resetBlock_turns (s : State) : (resetBlock s).turns = s.turns := rfl

/-! ### The chip held in reset (R27) -/

@[simp] theorem settle_block (s : State) : (settle s).block = s.block := by unfold settle; split <;> rfl
@[simp] theorem settle_host (s : State) : (settle s).host = s.host := by unfold settle; split <;> rfl
@[simp] theorem settle_turns (s : State) : (settle s).turns = s.turns := by unfold settle; split <;> rfl
@[simp] theorem settle_sr (s : State) : (settle s).chip.sr = s.chip.sr := by unfold settle; split <;> rfl

/-- With RST high nothing is drawn. -/
theorem settle_of_rst (s : State) (h : s.block.lines.rst = true) : settle s = s := by simp [settle, h]

/-! ### The frame exchange (R133) -/

@[simp] theorem exchange_lines (s : State) : (exchange s).block.lines = s.block.lines := rfl
@[simp] theorem exchange_fsm (s : State) : (exchange s).block.fsm = s.block.fsm := rfl
@[simp] theorem exchange_fault (s : State) : (exchange s).block.fault = s.block.fault := rfl
@[simp] theorem exchange_pend (s : State) : (exchange s).block.pend = s.block.pend := rfl
@[simp] theorem exchange_post (s : State) : (exchange s).block.post = s.block.post := rfl
@[simp] theorem exchange_chip (s : State) : (exchange s).chip = s.chip := rfl
@[simp] theorem exchange_port (s : State) : (exchange s).host.port = s.host.port := rfl
@[simp] theorem exchange_scratch (s : State) : (exchange s).host.scratch = s.block.fb.bytes := rfl
@[simp] theorem exchange_cursor (s : State) : (exchange s).host.cursor = 0 := rfl
@[simp] theorem exchange_turns (s : State) : (exchange s).turns = s.turns := rfl

/-! ### Outcomes -/

@[simp] theorem mapNext_next (f : State → State) (s : State) : mapNext f (.next s) = .next (f s) := rfl
@[simp] theorem mapNext_fault (f : State → State) (r : Fault) : mapNext f (.fault r) = .fault r := rfl
@[simp] theorem mapNext_refused (f : State → State) (r : Refusal) : mapNext f (.refused r) = .refused r := rfl

/-- What an outcome with a mapped next state was before. -/
theorem mapNext_eq_next {f : State → State} {o : Result} {t : State} (h : mapNext f o = .next t) :
    ∃ s, o = .next s ∧ f s = t := by
  cases o with
  | next s => exact ⟨s, rfl, by simpa using h⟩
  | fault r => cases h
  | refused r => cases h

end Sys2Proof.Laws
end

