-- ==== Sys2Proof/Laws/Step.lean ====
section
/-! SUPPORT. All that a step can do, once: by the turn it takes, and for the block's turn by what is pending and what waits on the
port. Later proofs cite these instead of unfolding the step. -/

namespace Sys2Proof.Laws

open Sys2Proof.Machine

/-- The state with the turn to be taken removed. -/
def popTurn (s : State) : State := { s with turns := s.turns.tail }

@[simp] theorem popTurn_block (s : State) : (popTurn s).block = s.block := rfl
@[simp] theorem popTurn_chip (s : State) : (popTurn s).chip = s.chip := rfl
@[simp] theorem popTurn_host (s : State) : (popTurn s).host = s.host := rfl
@[simp] theorem popTurn_turns (s : State) : (popTurn s).turns = s.turns.tail := rfl

/-- A step takes the turn at the head of the list, or the block's, and settles the chip. -/
theorem step_eq_turn (s : State) : step s = mapNext settle (takeTurn s.turn (popTurn s)) := by
  unfold step nextTurn State.turn popTurn
  cases ht : s.turns with
  | nil =>
    have hs : { s with turns := ([] : List Turn).tail } = s := by
      cases s
      simp_all
    rw [hs]
    rfl
  | cons t ts => rfl

/-- All that the block's turn can do (R100, R101). -/
theorem blockTurn_cases {s t : State} (h : blockTurn s = .next t) :
    (∃ e rest, s.block.pend = e :: rest ∧ t = eventStep e rest s) ∨
    (s.block.pend = [] ∧ s.host.port = none ∧ t = s) ∨
    (∃ w, s.block.pend = [] ∧ s.host.port = some w ∧
      ((s.block.fsm = .faulted ∧ t = s) ∨
       (s.block.fsm ≠ .faulted ∧ ∃ why, decode w = .error why ∧ t = raise .illegalCommand w (takeWord s)) ∨
       (s.block.fsm ≠ .faulted ∧ ∃ i f, decode w = .ok i ∧ check (.ok i) s.block.fsm = some f ∧
          t = raise f (encode i) (takeWord s)) ∨
       (s.block.fsm ≠ .faulted ∧ ∃ i es post, decode w = .ok i ∧ check (.ok i) s.block.fsm = none ∧ es ≠ [] ∧
          exec i s = .next t ∧ t = startTrace es post (takeWord s)))) := by
  unfold blockTurn at h
  cases hp : s.block.pend with
  | cons e rest =>
    simp only [hp] at h
    cases h
    exact .inl ⟨e, rest, rfl, rfl⟩
  | nil =>
    simp only [hp, acceptPort] at h
    cases hw : s.host.port with
    | none =>
      simp only [hw] at h
      cases h
      exact .inr (.inl ⟨rfl, rfl, rfl⟩)
    | some w =>
      refine .inr (.inr ⟨w, rfl, rfl, ?_⟩)
      simp only [hw] at h
      have hcan : s.block.fsm ≠ .faulted → s.block.canAccept = true := fun hf => (canAccept_iff _).mpr ⟨hp, hf⟩
      cases hd : decode w with
      | error why =>
        simp only [hd, acceptIllegal_eq] at h
        by_cases hf : s.block.fsm = .faulted
        · have hc : s.block.canAccept = false := by simp [Block.canAccept, hf]
          simp only [hc] at h
          cases h
          exact .inl ⟨hf, rfl⟩
        · simp only [hcan hf, if_true] at h
          cases h
          exact .inr (.inl ⟨hf, why, rfl, rfl⟩)
      | ok i =>
        simp only [hd] at h
        rcases exec_cases h with ⟨hc, rfl⟩ | ⟨hc, f, hf, rfl⟩ | ⟨hc, hk, es, post, hes, rfl⟩
        · by_cases hf : t.block.fsm = .faulted
          · exact .inl ⟨hf, rfl⟩
          · rw [hcan hf] at hc
            cases hc
        · exact .inr (.inr (.inl ⟨((canAccept_iff _).mp hc).2, i, f, rfl, hf, rfl⟩))
        · exact .inr (.inr (.inr ⟨((canAccept_iff _).mp hc).2, i, es, post, rfl, hk, hes, h, rfl⟩))

/-- The block's turn always has a next state. -/
theorem blockTurn_next (s : State) : ∃ t, blockTurn s = .next t := by
  unfold blockTurn
  split
  · exact ⟨_, rfl⟩
  · unfold acceptPort
    split
    · exact ⟨_, rfl⟩
    · split
      · exact exec_next _ _
      · exact ⟨_, acceptIllegal_eq _ _ _⟩

/-- All that a received byte can do (R136). -/
theorem receive_cases {x : Byte} {s t : State} (h : receive x s = .next t) :
    (x = Config.marker ∧ t = { s with host := { s.host with cursor := 0 } }) ∨
    (x ≠ Config.marker ∧ ∃ hc : s.host.cursor.val < 191, t = { s with
      host := { s.host with
        scratch := s.host.scratch.set s.host.cursor.val x (by omega), cursor := ⟨s.host.cursor.val + 1, by omega⟩ } }) ∨
    (x ≠ Config.marker ∧ s.host.cursor.val = 191 ∧
      t = exchange { s with host := { s.host with scratch := s.host.scratch.set 191 x, cursor := 192 } }) := by
  unfold receive at h
  by_cases hx : x = Config.marker
  · simp only [hx, if_true] at h
    cases h
    exact .inl ⟨hx, rfl⟩
  · simp only [hx, if_false] at h
    split at h
    · rename_i hc
      by_cases h191 : s.host.cursor.val + 1 = 192
      · have hv : s.host.cursor.val = 191 := by omega
        simp only [h191, if_true] at h
        cases h
        refine .inr (.inr ⟨hx, hv, ?_⟩)
        simp only [hv]
        rfl
      · simp only [h191, if_false] at h
        cases h
        exact .inr (.inl ⟨hx, by omega, rfl⟩)
    · cases h

/-- A received byte has a place while CURSOR is below 192 (R137). -/
theorem receive_next (x : Byte) {s : State} (h : s.host.cursor.val < 192) : ∃ t, receive x s = .next t := by
  unfold receive
  split
  · exact ⟨_, rfl⟩
  · simp only
    exact ⟨_, rfl⟩

/-- All that a turn of the host can do to the block, a reset apart: at most FB changes, by a frame exchange (R132). -/
theorem hostTurn_block {s t : State} {turn : Turn} (hb : turn ≠ .block) (hr : turn.resets = false)
    (h : takeTurn turn s = .next t) : t.block = { s.block with fb := t.block.fb } ∧ t.turns = s.turns := by
  cases turn with
  | block => exact absurd rfl hb
  | present =>
    cases h
    unfold presentTurn
    split <;> exact ⟨rfl, rfl⟩
  | receive x =>
    rcases receive_cases h with ⟨-, rfl⟩ | ⟨-, -, rfl⟩ | ⟨-, -, rfl⟩
    · exact ⟨rfl, rfl⟩
    · exact ⟨rfl, rfl⟩
    · exact ⟨rfl, rfl⟩
  | display =>
    cases h
    unfold displayTurn
    split <;> exact ⟨rfl, rfl⟩
  | startup => cases hr
  | startTasks =>
    cases h
    exact ⟨rfl, rfl⟩
  | reset => cases hr

end Sys2Proof.Laws
end

