-- ==== Sys2Proof/Machine/Assembler.lean ====
section
/-! DEFINITION. The assembler text of commands (R57). No step uses it. Log 28. -/

namespace Sys2Proof.Machine

/-- A command as text: `INIT`, `SEND_ROW <r>` with r in decimal, `DISPLAY_FRAME` (R57). -/
def asmText : Instr → String
  | .init => "INIT"
  | .sendRow r => "SEND_ROW " ++ toString r.toNat
  | .displayFrame => "DISPLAY_FRAME"

/-- The fields of a line, separated by blanks, up to the `;` that starts a comment (R57). -/
def lineFields (line : List Char) : List (List Char) :=
  ((line.takeWhile fun c => c != ';').splitOn ' ').filter fun f => !f.isEmpty

/-- A decimal number. -/
def decimalNumber (digits : List Char) : Option Nat :=
  if digits ≠ [] ∧ digits.all Char.isDigit then
    some (digits.foldl (fun n d => 10 * n + (d.toNat - '0'.toNat)) 0)
  else none

/-- The command of a line, if it holds one: `some []` for a blank line or a comment, `none` for any other text (R57: there are
no pseudo-instructions). -/
def assembleLine (line : List Char) : Option (List Instr) :=
  match lineFields line with
  | [] => some []
  | [op] =>
    if op = "INIT".toList then some [.init]
    else if op = "DISPLAY_FRAME".toList then some [.displayFrame]
    else none
  | [op, row] =>
    if op = "SEND_ROW".toList then
      match decimalNumber row with
      | some n => if n < 16 then some [.sendRow (BitVec.ofNat 8 n)] else none
      | none => none
    else none
  | _ => none

/-- The words of a text, one command per line (R57). -/
def assemble (text : String) : Option (List Word) :=
  ((text.toList.splitOn '\n').mapM assembleLine).map fun ls => ls.flatten.map encode

end Sys2Proof.Machine
end

