-- ==== Sys2Proof/Tests/Slice0.lean ====
section
/-! SUPPORT. Tests with expected results from the spec (95_test_vectors.md and the examples of the rules), and for every
statement that has hypotheses a witness that meets them. -/

open Sys2Proof Sys2Proof.Machine

namespace Sys2Proof.Tests

/-! ### Small states -/

/-- A word waits on the port. -/
def withWord (w : Word) (s : State) : State := { s with host := { s.host with port := some w } }

/-- The given turns are still to be taken. -/
def withTurns (ts : List Turn) (s : State) : State := { s with turns := ts }

/-- CURSOR at a place. -/
def withCursor (c : Fin 193) (s : State) : State := { s with host := { s.host with cursor := c } }

/-- Host code has words to present. -/
def withCmds (ws : List Word) (s : State) : State := { s with host := { s.host with cmds := ws } }

/-- The display task is held inside an activation. -/
def taskHeld (s : State) : State := { s with host := { s.host with phase := .held } }

/-- The lines as INIT leaves them (R105), with the given row lines. -/
def poweredLines (rows : Vector Bool 8) : Lines :=
  { sda := true, sck := false, lat := true, sb := true, rst := true, rows := rows }

/-- An idle block at an FSM value with the given row lines. -/
def idleAt (f : Fsm) (rows : Vector Bool 8) : State :=
  { State.reset with block := { Block.reset with fsm := f, post := f, lines := poweredLines rows } }

/-- The block right after INIT. -/
def ready : State := idleAt .bankInit noRow

/-- The block at ROW_ACTIVE(p) with only C_p on. -/
def active (p : Fin 8) : State := idleAt (.rowActive p) (onlyRow p)

/-- A FAULTED block. -/
def faulted : State := raise .reinit 0x1000 ready

/-- A busy block with the given events pending. -/
def busy (es : List Event) : State := startTrace es (.rowActive 3) ready

/-- The STATUS view after one step. -/
def statusAfter (s : State) : Option Word :=
  match step s with
  | .next t => some t.block.status
  | _ => none

/-! ### WellFormed -/

theorem test_wellFormed_refuses_row_16 : (Instr.sendRow 16).wellFormed = false := by decide
theorem test_wellFormed_refuses_row_255 : (Instr.sendRow 255).wellFormed = false := by decide
theorem test_wellFormed_accepts : Instr.init.wellFormed = true ∧ Instr.displayFrame.wellFormed = true ∧
    (Instr.sendRow 15).wellFormed = true := by decide

/-! ### Decode and encode (30_encoding.md R61) -/

theorem test_decode_init : decode 0b0001000000000000#16 = .ok .init := by rfl
theorem test_decode_sendRow : decode 0b0010011100000000#16 = .ok (.sendRow 7) ∧
    decode 0b0010100000000000#16 = .ok (.sendRow 8) := by exact ⟨rfl, rfl⟩
theorem test_decode_displayFrame : decode 0b0011000000000000#16 = .ok .displayFrame := by rfl
theorem test_decode_illegal : decode 0x0000#16 = .error .reservedOpcode ∧ decode 0x4000#16 = .error .reservedOpcode ∧
    decode 0x1100#16 = .error .rowField ∧ decode 0x3400#16 = .error .rowField ∧
    decode 0x2001#16 = .error .reservedByte ∧ decode 0xFFFF#16 = .error .reservedByte := by
  exact ⟨rfl, rfl, rfl, rfl, rfl, rfl⟩
theorem test_encode : encode .init = 0x1000 ∧ encode (.sendRow 3) = 0x2300 ∧ encode (.sendRow 15) = 0x2F00 ∧
    encode .displayFrame = 0x3000 := by decide
theorem test_tableWord : decodeTableWord 16 0x1000 = some .init ∧ decodeTableWord 16 0x2300 = some (.sendRow 3) ∧
    decodeTableWord 16 0x3000 = some .displayFrame ∧ decodeTableWord 16 0x2301 = none := by exact ⟨rfl, rfl, rfl, rfl⟩

/-- The source of P5 in assembler text (R57), with a comment, and its words. -/
theorem test_assemble : assemble "INIT\nSEND_ROW 0 ; first row\n\nSEND_ROW 3\nDISPLAY_FRAME" =
    some [0x1000, 0x2000, 0x2300, 0x3000] ∧ assemble "SEND_ROW 16" = none ∧ assemble "send_row 1" = none := by decide +kernel
theorem test_asmText : asmText (.sendRow 15) = "SEND_ROW 15" := by decide +kernel

/-! ### One step of each command -/

/-- After acceptance INIT is busy at UNINIT (V-F2). -/
theorem test_init_starts : statusAfter (State.reset.withFetchWord 16 0x1000) = some 0x0100 := by decide +kernel
/-- INIT twice: the fault table of 95_test_vectors.md. -/
theorem test_init_again : statusAfter (withWord 0x1000 ready) = some 0x0042 ∧
    statusAfter (withWord 0x1000 (active 3)) = some 0x0042 := by decide +kernel
/-- STATUS = 0x0101 during the first SEND_ROW after INIT (V-F2). -/
theorem test_sendRow_starts : statusAfter (ready.withFetchWord 16 0x2300) = some 0x0101 := by decide +kernel
/-- SEND_ROW in the fault table: before INIT state wins over operand, after it a row of 8 or more faults. -/
theorem test_sendRow_faults : statusAfter (State.reset.withFetchWord 16 0x2900) = some 0x0032 ∧
    statusAfter (withWord 0x2800 ready) = some 0x0012 ∧ statusAfter (withWord 0x2F00 (active 3)) = some 0x0012 := by
  decide +kernel
theorem test_displayFrame_starts : statusAfter (ready.withFetchWord 16 0x3000) = some 0x0101 := by decide +kernel
theorem test_displayFrame_faults : statusAfter (State.reset.withFetchWord 16 0x3000) = some 0x0032 := by decide +kernel
/-- Illegal words in the fault table; encoding wins over state. -/
theorem test_illegal_words : statusAfter (withWord 0x1001 State.reset) = some 0x0022 ∧
    statusAfter (withWord 0x2301 (active 3)) = some 0x0022 ∧ statusAfter (withWord 0x0000 (active 3)) = some 0x0022 := by
  decide +kernel
/-- FAULTED: any word is held, STATUS unchanged. -/
theorem test_faulted_holds : statusAfter (withWord 0x1000 faulted) = some 0x0042 := by decide +kernel

/-! ### Traces and streams (95_test_vectors.md) -/

/-- LINEVEC after INIT from reset (R105, P1). -/
theorem test_init_linevec : (Lines.reset.performAll initTrace).linevec = 0x001D := by decide +kernel
/-- Events 0, 1, 2, 579, 580, 581 and 582 of INIT (R105). -/
theorem test_init_events : initTrace[0]? = some (.delay 100) ∧ initTrace[1]? = some (.set .rst true) ∧
    initTrace[2]? = some (.set .sb false) ∧ initTrace[579]? = some (.set .lat true) ∧
    initTrace[580]? = some (.set .lat false) ∧ initTrace[581]? = some (.set .lat true) ∧
    initTrace[582]? = some (.set .sb true) := by decide +kernel
/-- The levels of SDA in SEND_BYTE(0xA5) (R81). -/
theorem test_send_byte : (sendByte 0xA5).filterMap
      (fun e => match e with | .set .sda v => some v | _ => none)
    = [true, false, true, false, false, true, false, true] := by decide
/-- GAMMA_TEST (R76). -/
theorem test_gamma_table : [0, 1, 15, 16, 17, 100, 127, 128, 200, 254, 255].map (gammaTest ∘ BitVec.ofNat 8)
    = [0, 0, 0, 1, 1, 39, 63, 64, 156, 253, 255] := by decide
/-- The example of R73. -/
theorem test_gamma_correct : gammaCorrect gammaTest { r := 128, g := 16, b := 255 } = { r := 64, g := 1, b := 255 } := by
  decide
/-- The stream of row 0 of `FB[i] = i` with GAMMA_TEST (R82). -/
theorem test_row_stream_0 : rowStream gammaTest (Vector.ofFn fun i : Fin 24 => BitVec.ofNat 8 i.val)
    = [2, 1, 1, 1, 1, 1, 1, 1] ++ List.replicate 16 0 := by decide
/-- The stream of row 3 of `FB[i] = i` with GAMMA_TEST (P5). -/
theorem test_row_stream_3 : rowStream gammaTest (Vector.ofFn fun i : Fin 24 => BitVec.ofNat 8 (72 + i.val))
    = [0x23, 0x22, 0x21, 0x21, 0x20, 0x1F, 0x1F, 0x1E, 0x1D, 0x1D, 0x1C, 0x1B, 0x1B, 0x1A, 0x19, 0x19, 0x18, 0x17, 0x17,
      0x16, 0x16, 0x15, 0x14, 0x14] := by decide
/-- The examples of R93. -/
theorem test_row_select : rowSelect 7 false = .ok [.set (.row 7) false] ∧ rowSelect 8 true = .error .rowRange := by
  exact ⟨rfl, rfl⟩
/-- LINEVEC of the lines of P2's end: LAT, SB, RST and C1 high. -/
theorem test_linevec_row1 : ({ poweredLines (onlyRow 1) with sda := false } : Lines).linevec = 0x005C := by decide +kernel

/-! ### Image content (the scaling and gradient tables of 95_test_vectors.md) -/

theorem test_scale : scale 200 (.finite (3 / 2)) = .ok 255 ∧ scale 170 (.finite (3 / 2)) = .ok 255 ∧
    scale 100 (.finite (1 / 2)) = .ok 50 ∧ scale 101 (.finite (1 / 2)) = .ok 51 ∧ scale 3 (.finite (1 / 2)) = .ok 2 ∧
    scale 1 (.finite (49 / 100)) = .ok 0 ∧ scale 128 (.finite (999 / 1000)) = .ok 128 ∧
    scale 254 (.finite (1002 / 1000)) = .ok 255 ∧ scale 255 (.finite 0) = .ok 0 ∧ scale 1 (.finite (-2)) = .ok 0 ∧
    scale 0 (.finite 100) = .ok 0 := by
  refine ⟨?_, ?_, ?_, ?_, ?_, ?_, ?_, ?_, ?_, ?_, ?_⟩ <;> decide +kernel
theorem test_gradient : gradientCell { r := 255, g := 128, b := 7 } 7 7 = .ok { r := 4, g := 2, b := 0 } ∧
    gradientCell { r := 255, g := 128, b := 7 } 0 1 = .ok { r := 128, g := 64, b := 4 } ∧
    gradientCell { r := 253, g := 253, b := 253 } 1 0 = .ok { r := 127, g := 127, b := 127 } ∧
    gradientCell { r := 1, g := 1, b := 1 } 1 1 = .ok { r := 0, g := 0, b := 0 } := by
  refine ⟨?_, ?_, ?_, ?_⟩ <;> decide +kernel

/-! ### Witnesses: encoding, the step and acceptance -/

theorem witness_DecodeIffEncode : decode 0x2F00 = .ok (.sendRow 15) ∧ (Instr.sendRow 15).wellFormed = true ∧
    encode (.sendRow 15) = 0x2F00 := by exact ⟨rfl, rfl, rfl⟩

theorem witness_IllegalWordsFault :
    (∀ w ∈ [0x0000#16, 0x1100#16, 0x2001#16, 0x3400#16, 0x4000#16, 0xFFFF#16],
      (∃ why, decode w = .error why) ∧ (withWord w ready).turn = .block ∧ (withWord w ready).block.pend = [] ∧
      (withWord w ready).block.fsm ≠ .faulted ∧ (withWord w ready).host.port = some w) := by
  intro w hw
  refine ⟨?_, rfl, rfl, fun h => Fsm.noConfusion h, rfl⟩
  simp only [List.mem_cons, List.not_mem_nil, or_false] at hw
  rcases hw with rfl | rfl | rfl | rfl | rfl | rfl <;> exact ⟨_, rfl⟩

theorem witness_StepRunsDecoded : (withWord 0x1000 State.reset).block.pend = [] ∧
    (withWord 0x1000 State.reset).host.port = some 0x1000 ∧ decode 0x1000 = .ok .init ∧
    (withWord 0x1000 State.reset).turn = .block := by exact ⟨rfl, rfl, rfl, rfl⟩

theorem witness_WordAcceptance :
    ((withWord 0x2000 (busy [.delay 1])).turn = .block ∧ (withWord 0x2000 (busy [.delay 1])).block.pend ≠ []) ∧
    ((withWord 0x2000 faulted).turn = .block ∧ (withWord 0x2000 faulted).block.pend = [] ∧
      (withWord 0x2000 faulted).block.fsm = .faulted) ∧
    ((withWord 0x2800 ready).turn = .block ∧ (withWord 0x2800 ready).block.pend = [] ∧
      (withWord 0x2800 ready).block.fsm ≠ .faulted ∧
      check (decode 0x2800) (withWord 0x2800 ready).block.fsm = some .rowRange) ∧
    ((withWord 0x2700 ready).turn = .block ∧ (withWord 0x2700 ready).block.pend = [] ∧
      (withWord 0x2700 ready).block.fsm ≠ .faulted ∧
      check (decode 0x2700) (withWord 0x2700 ready).block.fsm = none) := by
  exact ⟨⟨rfl, by decide⟩, ⟨rfl, rfl, rfl⟩, ⟨rfl, rfl, by decide, rfl⟩, ⟨rfl, rfl, by decide, rfl⟩⟩

theorem witness_CheckPrecedence : Fsm.bankInit ≠ .uninit ∧ 7 < (8 : BitVec 8).toNat ∧ 7 < (15 : BitVec 8).toNat ∧
    (7 : BitVec 8).toNat ≤ 7 ∧ (0 : BitVec 8).toNat ≤ 7 := by decide

theorem witness_FaultsRaisedExactly :
    (∀ p ∈ [(0x2800#16, ready), (0x0000#16, ready), (0x2000#16, State.reset), (0x3000#16, State.reset), (0x1000#16, ready)],
      ∃ t, step (withWord p.1 p.2) = .next t ∧ (withWord p.1 p.2).turn.resets = false ∧
        t.block.fault ≠ (withWord p.1 p.2).block.fault) ∧
    faultCondition .rowRange (withWord 0x2800 ready).block.fsm (decode 0x2800) ∧
    faultCondition .illegalCommand (withWord 0x0000 ready).block.fsm (decode 0x0000) ∧
    faultCondition .notInitialized (withWord 0x2800 State.reset).block.fsm (decode 0x2800) ∧
    faultCondition .reinit (withWord 0x1000 ready).block.fsm (decode 0x1000) := by
  refine ⟨?_, ⟨Fsm.noConfusion, 8, rfl, by decide⟩, ⟨_, rfl⟩, ⟨rfl, .inl ⟨8, rfl⟩⟩, Fsm.noConfusion, rfl⟩
  intro p hp
  simp only [List.mem_cons, List.not_mem_nil, or_false] at hp
  rcases hp with rfl | rfl | rfl | rfl | rfl <;> exact ⟨_, rfl, rfl, by decide⟩

theorem witness_OnlyResetLeavesFaulted :
    ((withWord 0x2000 faulted).block.fsm = .faulted ∧ (withWord 0x2000 faulted).block.pend = [] ∧
      (∃ t, step (withWord 0x2000 faulted) = .next t) ∧ (withWord 0x2000 faulted).turn.resets = false ∧
      (withWord 0x2000 faulted).host.port = some 0x2000) ∧
    ((withTurns [.reset] faulted).block.fsm = .faulted ∧ (withTurns [.reset] faulted).block.pend = [] ∧
      (∃ t, step (withTurns [.reset] faulted) = .next t) ∧ (withTurns [.reset] faulted).turn.resets = true) := by
  exact ⟨⟨rfl, rfl, ⟨_, rfl⟩, rfl, rfl⟩, rfl, rfl, ⟨_, rfl⟩, rfl⟩

theorem witness_BusyBlockStep :
    ((busy [.set .sda true]).block.pend = [.set .sda true] ∧ (busy [.set .sda true]).turn = .block) ∧
    ((busy [.delay 1, .set .sda true]).block.pend = [.delay 1, .set .sda true] ∧
      (busy [.delay 1, .set .sda true]).turn = .block) ∧
    ((withTurns [.receive 0] (busy [.delay 1])).block.pend = [.delay 1] ∧
      (withTurns [.receive 0] (busy [.delay 1])).turn ≠ .block ∧
      (withTurns [.receive 0] (busy [.delay 1])).turn.resets = false ∧
      ∃ t, step (withTurns [.receive 0] (busy [.delay 1])) = .next t) := by
  exact ⟨⟨rfl, rfl⟩, ⟨rfl, rfl⟩, rfl, by decide, rfl, _, rfl⟩

theorem witness_FsmChangesOnly :
    (∃ t, step (withWord 0x2800 ready) = .next t ∧ (withWord 0x2800 ready).turn.resets = false ∧
      t.block.fsm ≠ (withWord 0x2800 ready).block.fsm) ∧
    (∃ t, step (busy [.delay 1]) = .next t ∧ (busy [.delay 1]).turn.resets = false ∧
      t.block.fsm ≠ (busy [.delay 1]).block.fsm) := by
  exact ⟨⟨_, rfl, rfl, by decide⟩, _, rfl, rfl, by decide⟩

theorem witness_LinesChangeOnlyByEvents :
    ∃ t, step (busy [.set (.row 7) true]) = .next t ∧ (busy [.set (.row 7) true]).turn.resets = false ∧
      t.block.lines.get (.row 7) ≠ (busy [.set (.row 7) true]).block.lines.get (.row 7) := by
  exact ⟨_, rfl, rfl, by decide⟩

theorem witness_EventsRunInOrder : (busy [.delay 1, .set .sda true]).turns = [] ∧
    (busy [.delay 1, .set .sda true]).block.pend ≠ [] ∧ 0 ≤ (busy [.delay 1, .set .sda true]).block.pend.length ∧
    2 ≤ (busy [.delay 1, .set .sda true]).block.pend.length := by
  exact ⟨rfl, by decide, by decide, by decide⟩

theorem witness_HeldCommandsChangeNothing : (busy [.delay 1]).block.pend ≠ [] ∧ faulted.block.fsm = .faulted := by
  exact ⟨by decide, rfl⟩

/-! ### Witnesses: INIT, SEND_ROW and DISPLAY_FRAME -/

theorem witness_InitAccepted : State.reset.block.pend = [] ∧ State.reset.block.fsm = .uninit := by exact ⟨rfl, rfl⟩

theorem witness_SecondInitFaults : (active 7).block.pend = [] ∧ (active 7).block.fsm ≠ .uninit ∧
    (active 7).block.fsm ≠ .faulted := by exact ⟨rfl, by decide, by decide⟩

theorem witness_InitRuns : State.reset.turns = [] ∧ State.reset.block.pend = [] ∧ State.reset.block.fsm = .uninit := by
  exact ⟨rfl, rfl, rfl⟩

theorem witness_SendRowAccepted : (0 : BitVec 8).toNat < 8 ∧ (7 : BitVec 8).toNat < 8 ∧ ready.block.pend = [] ∧
    ready.block.fsm.ready = true ∧ (active 7).block.fsm.ready = true := by exact ⟨by decide, by decide, rfl, rfl, rfl⟩

theorem witness_RowsNeedInitAndRange : State.reset.block.pend = [] ∧ State.reset.block.fsm = .uninit ∧
    ready.block.pend = [] ∧ ready.block.fsm.ready = true ∧ 7 < (8 : BitVec 8).toNat ∧ 7 < (15 : BitVec 8).toNat := by
  exact ⟨rfl, rfl, rfl, rfl, by decide, by decide⟩

theorem witness_RowTraceMap : ready.block.pend = [] ∧ ready.block.fsm.ready = true ∧
    (∃ t, exec (.sendRow (BitVec.ofNat 8 (0 : Fin 8).val)) ready = .next t) ∧
    ∃ t, exec (.sendRow (BitVec.ofNat 8 (7 : Fin 8).val)) ready = .next t := by
  exact ⟨rfl, rfl, ⟨_, rfl⟩, _, rfl⟩

theorem witness_SendRowRuns : ready.turns = [] ∧ ready.block.pend = [] ∧ ready.block.fsm.ready = true := by
  exact ⟨rfl, rfl, rfl⟩

theorem witness_SentRowIsShown : ready.turns = [] ∧ ready.block.pend = [] ∧ ready.block.fsm.ready = true ∧
    ready.block.lines.rst = true ∧ ready.block.lines.sb = true := by exact ⟨rfl, rfl, rfl, rfl, rfl⟩

theorem witness_SingleActiveRow :
    (ready.turns = [] ∧ ready.block.pend = [] ∧ ready.block.fsm = .bankInit ∧ ready.block.lines.rows = noRow) ∧
    ((active 7).turns = [] ∧ (active 7).block.pend = [] ∧ (active 7).block.fsm = .rowActive 7 ∧
      (active 7).block.lines.rows = onlyRow 7 ∧ (0 : Fin 8).val = ((7 : Fin 8).val + 1) % 8) := by
  exact ⟨⟨rfl, rfl, rfl, rfl⟩, rfl, rfl, rfl, rfl, rfl⟩

theorem witness_OutOfOrderLightsTwoRows : (active 0).turns = [] ∧ (active 0).block.pend = [] ∧
    (active 0).block.fsm = .rowActive 0 ∧ (active 0).block.lines.rows[(0 : Fin 8)] = true ∧ (3 : Fin 8) ≠ 0 ∧
    (3 : Fin 8).val ≠ ((0 : Fin 8).val + 1) % 8 := by exact ⟨rfl, rfl, rfl, by decide, by decide, by decide⟩

theorem witness_SameRowStaysLit : (active 3).turns = [] ∧ (active 3).block.pend = [] ∧
    (active 3).block.fsm = .rowActive 3 ∧ (active 3).block.lines.rows = onlyRow 3 := by exact ⟨rfl, rfl, rfl, rfl⟩

theorem witness_OldRowShownWhileShifting : (active 7).turns = [] ∧ (active 7).block.pend = [] ∧
    (active 7).block.fsm.ready = true ∧ (active 7).block.lines.rst = true ∧ (active 7).block.lines.lat = true := by
  exact ⟨rfl, rfl, rfl, rfl, rfl⟩

theorem witness_DutifulHostLightsOneRow : State.reset.turns = [] ∧ State.reset.block.pend = [] ∧
    State.reset.block.fsm = .uninit ∧ State.reset.block.lines.rows = noRow ∧
    dutiful .uninit [.init, .sendRow 7, .sendRow 0, .sendRow 1] ∧ dutiful .uninit [.init, .displayFrame, .displayFrame] := by
  exact ⟨rfl, rfl, rfl, rfl, ⟨rfl, 7, rfl, trivial, 0, rfl, rfl, 1, rfl, rfl, trivial⟩, rfl, .inl rfl, .inr rfl, trivial⟩

theorem witness_DisplayFrameAccepted : ready.block.pend = [] ∧ ready.block.fsm.ready = true := by exact ⟨rfl, rfl⟩

theorem witness_DisplayFrameRuns : (active 3).turns = [] ∧ (active 3).block.pend = [] ∧
    (active 3).block.fsm.ready = true ∧ (active 3).block.lines.rst = true ∧ (active 3).block.lines.sb = true := by
  exact ⟨rfl, rfl, rfl, rfl, rfl⟩

theorem witness_DisplayFrameOneRow :
    (ready.turns = [] ∧ ready.block.pend = [] ∧ ready.block.fsm = .bankInit ∧ ready.block.lines.rows = noRow) ∧
    ((active 7).turns = [] ∧ (active 7).block.pend = [] ∧ (active 7).block.fsm = .rowActive 7 ∧
      (active 7).block.lines.rows = onlyRow 7) := by exact ⟨⟨rfl, rfl, rfl, rfl⟩, rfl, rfl, rfl, rfl⟩

theorem witness_DisplayFrameOutOfCycle : ∀ p ∈ [(1 : Fin 8), 6], 1 ≤ p.val ∧ p.val ≤ 6 ∧ (active p).turns = [] ∧
    (active p).block.pend = [] ∧ (active p).block.fsm = .rowActive p ∧ (active p).block.lines.rows[p] = true := by
  intro p hp
  simp only [List.mem_cons, List.not_mem_nil, or_false] at hp
  rcases hp with rfl | rfl <;> exact ⟨by decide, by decide, rfl, rfl, rfl, by decide⟩

/-! ### Witnesses: memory and the receiver -/

theorem witness_ByteWriteChangesOneChannel :
    (191 : Fin 192).val = 24 * (7 : Fin 8).val + 3 * (7 : Fin 8).val + Channel.b.toFin.val ∧
    ((7 : Fin 8).val = (191 : Fin 192).val / 3 / 8 ∧ (7 : Fin 8).val = (191 : Fin 192).val / 3 % 8 ∧
      Channel.b.toFin.val = (191 : Fin 192).val % 3) := by decide

theorem witness_FrameChangesOnlyByExchange :
    (∃ t, step ready = .next t ∧ ready.turn.resets = false) ∧
    (∃ t, step (withTurns [.receive 0] (withCursor 191 ready)) = .next t ∧
      (withTurns [.receive 0] (withCursor 191 ready)).turn = .receive 0 ∧ (0 : Byte) ≠ 0xFF ∧
      (withTurns [.receive 0] (withCursor 191 ready)).host.cursor.val = 191) := by
  exact ⟨⟨_, rfl, rfl⟩, _, rfl, rfl, by decide, rfl⟩

theorem witness_CanonicalMemoriesEqual :
    ({ cells := [(5, Memory.unlisted 5 + 1)] } : Memory).wf = true ∧
    (∀ a, ({ cells := [(5, Memory.unlisted 5 + 1)] } : Memory).read a = Memory.read { cells := [(5, Memory.unlisted 5 + 1)] } a) := by
  refine ⟨?_, fun a => rfl⟩
  have h : (Memory.unlisted 5 + 1 : Byte) ≠ Memory.unlisted 5 := by
    generalize Memory.unlisted 5 = x
    revert x
    decide +kernel
  simp [Memory.wf, Memory.cellWf]

theorem witness_ReceiveByte : (0xFF : Byte) = 0xFF ∧
    ((withCursor 0 ready).host.cursor.val < 191 ∧ (withCursor 190 ready).host.cursor.val < 191 ∧ (0 : Byte) ≠ 0xFF) ∧
    ((withCursor 191 ready).host.cursor.val = 191 ∧ (0xFE : Byte) ≠ 0xFF) := by
  exact ⟨rfl, ⟨by decide, by decide, by decide⟩, rfl, by decide⟩

theorem witness_FrameReceived : ∃ s : State, ∃ xs : Vector Byte 192, (∀ a : Fin 192, xs[a] ≠ 0xFF) ∧
    s.turns = Turn.receive 0xFF :: xs.toList.map Turn.receive := by
  refine ⟨withTurns (Turn.receive 0xFF :: (Vector.replicate 192 (0 : Byte)).toList.map Turn.receive) ready,
    Vector.replicate 192 0, ?_, rfl⟩
  intro a
  simp

theorem witness_PartialFrameUnseen : ∃ s : State, ∃ xs : List Byte, (∀ x ∈ xs, x ≠ 0xFF) ∧ xs.length = 191 ∧
    xs.length < 192 ∧ s.turns = Turn.receive 0xFF :: xs.map Turn.receive := by
  refine ⟨withTurns (Turn.receive 0xFF :: (List.replicate 191 (0 : Byte)).map Turn.receive) ready,
    List.replicate 191 0, ?_, List.length_replicate, ?_, rfl⟩
  on_goal 2 => rw [List.length_replicate]; decide
  intro x hx
  rw [List.eq_of_mem_replicate hx]
  decide

/-! ### Witnesses: the tasks -/

theorem witness_DisplayActivation :
    (ready.host.phase = .dormant ∧ ready.host.port = none ∧ ready.host.cmds = []) ∧
    (withWord 0x2000 ready).host.port = some 0x2000 ∧
    ((taskHeld ready).host.phase = .held ∧ (taskHeld ready).host.port = none) ∧
    ((withCmds [0x3000] ready).host.phase = .dormant ∧ (withCmds [0x3000] ready).host.port = none ∧
      (withCmds [0x3000] ready).host.cmds = 0x3000 :: []) ∧
    (withTurns [.display] ready).turn = .display ∧ (withTurns [.present] ready).turn = .present := by
  exact ⟨⟨rfl, rfl, rfl⟩, rfl, ⟨rfl, rfl⟩, ⟨rfl, rfl, rfl⟩, rfl, rfl⟩

/-- A present turn puts the first word on a free port (R100). -/
theorem test_present : (presentTurn (withCmds [0x1000, 0x3000] ready)).host.port = some 0x1000 ∧
    (presentTurn (withCmds [0x1000, 0x3000] ready)).host.cmds = [0x3000] ∧
    (presentTurn (withCmds [0x1000] (taskHeld ready))).host.port = none := by exact ⟨rfl, rfl, rfl⟩

theorem witness_TaskRunKept : TaskRun ready where
  turns := by intro t ht; cases ht
  cursor := by decide
  task := trivial
  oneRow := by
    intro n i j
    have h : (ready.block.lines.performAll (ready.block.pend.take n)).rows = noRow := by
      show ((poweredLines noRow).performAll (List.take n [])).rows = noRow
      rw [List.take_nil]
      rfl
    rw [h]
    simp [noRow]
  final := rfl

theorem witness_BootLeadsToTaskRun : ∃ (s : State) (ts : List Turn), s.turns = [.startup, .block, .startTasks] ++ ts ∧
    ts = [.display, .receive 0, .block] ∧ ∀ t ∈ ts, Turn.ofTaskRun t := by
  refine ⟨withTurns ([.startup, .block, .startTasks] ++ [.display, .receive 0, .block]) State.reset, _, rfl, rfl, ?_⟩
  intro t ht
  simp only [List.mem_cons, List.not_mem_nil, or_false] at ht
  rcases ht with rfl | rfl | rfl <;> trivial

/-! ### Witnesses: the observer, reset and the rest -/

theorem witness_LatchPulseCommits : (poweredLines noRow).lat = true ∧
    ((poweredLines noRow).sb = true ∧ 192 ≤ (List.replicate 192 true).length) ∧
    (({ poweredLines noRow with sb := false } : Lines).lat = true ∧
      ({ poweredLines noRow with sb := false } : Lines).sb = false ∧ 144 ≤ (List.replicate 144 true).length) := by
  refine ⟨rfl, ⟨rfl, ?_⟩, rfl, rfl, ?_⟩ <;> rw [List.length_replicate]

theorem witness_ResetFromAnywhere :
    ((withTurns [.reset] faulted).turn = .reset ∧ (withTurns [.reset] faulted).block.pend = []) ∧
    ((withTurns [.reset] (busy [.delay 1])).turn = .reset ∧ (withTurns [.reset] (busy [.delay 1])).block.pend ≠ []) := by
  exact ⟨⟨rfl, rfl⟩, rfl, by decide⟩

theorem witness_IdleBlockWaits : State.reset.turn = .block ∧ State.reset.block.pend = [] ∧ State.reset.host.port = none := by
  exact ⟨rfl, rfl, rfl⟩

theorem witness_ready_inv : MachineInv ready where
  memory := rfl
  cursor := by decide
  faultRecord := by decide
  noInfo := fun _ => rfl
  faultIdle := fun _ => rfl
  post := fun h => absurd rfl h
  length := by decide
  clock := rfl
  latch := rfl
  uninit := by decide
  powered := fun _ => ⟨rfl, rfl⟩
  dark := fun _ => rfl
  lit := by decide

theorem witness_StepKeepsInv : MachineInv ready ∧ (∃ t, step ready = .next t) ∧ ∃ t, step (withWord 0x3000 ready) = .next t := by
  exact ⟨witness_ready_inv, ⟨_, rfl⟩, _, rfl⟩

theorem witness_InvStepNeverStops : MachineInv ready := by exact witness_ready_inv

theorem witness_GammaMonotone : (15 : Byte) ≤ 16 := by decide

theorem witness_RowSelectRange : (0 : Int) = (0 : Fin 8).val ∧ (7 : Int) = (7 : Fin 8).val ∧ (-1 : Int) < 0 ∧ (7 : Int) < 8 := by
  decide

theorem witness_ScaleRoundsClamped : ((0 : Rat) ≤ 1 / 2 ∧ fl32 (1 / 2) = .finite (1 / 2)) ∧
    ((0 : Rat) ≤ 0 ∧ fl32 0 = .finite 0) := by
  refine ⟨⟨?_, ?_⟩, ?_, ?_⟩ <;> decide +kernel

end Sys2Proof.Tests
end

/-! PROOFS. The block's state (10_state.md): its views, what a step outside a reset can do to the block, how the observer follows
a trace, and what a sent row shows. -/

namespace Sys2Proof.Proofs

open Sys2Proof.Machine Sys2Proof.Laws

/-! ### The views: lines, LINEVEC and STATUS -/

@[simp] theorem ofId_id (l : Line) : Line.ofId l.id = l := by
  cases l with
  | row r => simp [Line.id, Line.ofId]
  | sda => rfl
  | sck => rfl
  | lat => rfl
  | sb => rfl
  | rst => rfl

theorem id_ofId : ∀ n : Fin 13, (Line.ofId n).id = n := by decide

/-- Bit l of LINEVEC is the level of line l (R10). -/
theorem linevec_getLsbD_id (ls : Lines) (l : Line) : ls.linevec.getLsbD l.id.val = ls.get l := by
  simp [Lines.linevec]

/-- Settles O53: ids and lines are inverse to each other, and LINEVEC is read by id. -/
theorem linevecBits : Obligations.LinevecBits :=
  ⟨linevec_getLsbD_id, ofId_id, id_ofId, rfl, rfl, rfl, rfl, rfl, fun _ => rfl⟩

theorem status_fsm (b : Block) : b.status.extractLsb' 0 4 = b.fsm.code :=
  BitVec.extractLsb'_append_eq_right

theorem status_cause (b : Block) : b.status.extractLsb' 4 4 = b.fault.cause.code :=
  (BitVec.extractLsb'_append_eq_of_le (by decide)).trans BitVec.extractLsb'_append_eq_right

theorem status_busy (b : Block) : b.status.extractLsb' 8 1 = BitVec.ofBool (!b.idle) :=
  (BitVec.extractLsb'_append_eq_of_le (by decide)).trans <|
    (BitVec.extractLsb'_append_eq_of_le (by decide)).trans BitVec.extractLsb'_append_eq_right

theorem status_high (b : Block) : b.status.extractLsb' 9 7 = 0 :=
  (BitVec.extractLsb'_append_eq_of_le (by decide)).trans <|
    (BitVec.extractLsb'_append_eq_of_le (by decide)).trans <|
      (BitVec.extractLsb'_append_eq_of_le (by decide)).trans BitVec.extractLsb'_eq_self

theorem status_bit_busy (b : Block) : b.status.getLsbD 8 = !b.idle := by
  have h := congrArg (·.getLsbD 0) (status_busy b)
  simpa using h

/-- Settles O52, field by field of the concatenation. -/
theorem statusFields : Obligations.StatusFields := by
  intro b
  refine ⟨status_fsm b, status_cause b, ?_, status_high b⟩
  rw [status_bit_busy]
  simp [Block.idle]

/-! ### The reset state -/

/-- Settles O46: each value is the one the reset state is written with; FB lists nothing, so it reads as INIT_FRAME. -/
theorem resetValues : Obligations.ResetValues :=
  ⟨rfl, rfl, rfl, rfl, rfl, by decide, by decide, rfl, rfl, rfl, rfl, rfl, read_empty, rfl, rfl, rfl, rfl⟩

/-- Settles O49: the reset block is idle at UNINIT, so its final lines are the reset levels and the later clauses are empty. -/
theorem resetMeetsInv : Obligations.ResetMeetsInv where
  memory := reset_memory_wf
  cursor := by decide
  faultRecord := by decide
  noInfo := fun _ => rfl
  faultIdle := fun _ => rfl
  post := fun h => absurd rfl h
  length := by decide
  clock := rfl
  latch := rfl
  uninit := fun _ => rfl
  powered := fun h => Bool.noConfusion h
  dark := fun _ => rfl
  lit := fun _ h => Fsm.noConfusion h

/-! ### What a step outside a reset can do to the block -/

/-- A word is its three fields (R52). -/
theorem word_eq_fields (w : Word) : w = opcField w ++ rowField w ++ reservedField w := by
  unfold opcField rowField reservedField
  rw [BitVec.extractLsb'_append_extractLsb'_eq_extractLsb' (by rfl),
    BitVec.extractLsb'_append_extractLsb'_eq_extractLsb' (by rfl), BitVec.extractLsb'_eq_self]

/-- The word of SEND_ROW r for a 4-bit row field, by its fields (R53). -/
theorem encode_sendRow_zeroExtend (r : BitVec 4) : encode (.sendRow (r.zeroExtend 8)) = 0x2#4 ++ r ++ 0x0#8 := by
  revert r
  decide

/-- The word a command was decoded from is its encoding, so the word that an acceptance records is the accepted one (log 16). -/
theorem encode_of_decode {w : Word} {i : Instr} (h : decode w = .ok i) : encode i = w := by
  rw [word_eq_fields w]
  unfold decode at h
  split_ifs at h with hb h1 hr h2 h3 hr <;> cases h
  all_goals have hb : reservedField w = 0 := not_not.mp hb
  · rw [hb, h1, hr]; rfl
  · rw [hb, h2]; exact encode_sendRow_zeroExtend _
  · rw [hb, h3, hr]; rfl

/-- What a step outside a reset leaves of the block is one of four: all but FB is as before; the head event of PEND was performed
(R101, R102); the waiting word entered a fault (R162); or the trace of the waiting word started (R100). -/
theorem step_block_cases {s t : State} (h : step s = .next t) (hr : s.turn.resets = false) :
    t.block = { s.block with fb := t.block.fb } ∨
    (s.turn = .block ∧ ∃ e rest, s.block.pend = e :: rest ∧
      t.block = { s.block with
        lines := s.block.lines.perform e
        pend := rest
        fsm := if rest.isEmpty then s.block.post else s.block.fsm }) ∨
    (s.turn = .block ∧ s.block.pend = [] ∧ s.block.fsm ≠ .faulted ∧ ∃ w f, s.host.port = some w ∧
      check (decode w) s.block.fsm = some f ∧
      t.block = { s.block with fault := { cause := f, info := w }, fsm := .faulted, pend := [] }) ∨
    (s.turn = .block ∧ s.block.pend = [] ∧ s.block.fsm ≠ .faulted ∧ ∃ w es post, s.host.port = some w ∧
      check (decode w) s.block.fsm = none ∧
      t.block = { s.block with pend := es, post := post }) := by
  rw [step_eq_turn] at h
  obtain ⟨u, hu, rfl⟩ := mapNext_eq_next h
  rw [settle_block]
  by_cases hb : s.turn = .block
  · rw [hb] at hu
    rcases blockTurn_cases hu with ⟨e, rest, hp, rfl⟩ | ⟨-, -, rfl⟩ | ⟨w, hp, hw, hcase⟩
    · exact .inr (.inl ⟨hb, e, rest, hp, rfl⟩)
    · exact .inl rfl
    · rcases hcase with ⟨-, rfl⟩ | ⟨hf, why, hd, rfl⟩ | ⟨hf, i, f, hd, hk, rfl⟩ |
        ⟨hf, i, es, post, hd, hk, -, -, rfl⟩
      · exact .inl rfl
      · exact .inr (.inr (.inl ⟨hb, hp, hf, w, .illegalCommand, hw, by rw [hd]; rfl, rfl⟩))
      · refine .inr (.inr (.inl ⟨hb, hp, hf, w, f, hw, by rw [hd]; exact hk, ?_⟩))
        rw [← encode_of_decode hd]
        rfl
      · exact .inr (.inr (.inr ⟨hb, hp, hf, w, es, post, hw, by rw [hd]; exact hk, rfl⟩))
  · exact .inl (hostTurn_block hb hr hu).1

/-- Settles O10: of the four things a step can do to the block, fault entry and the last event change FSM. -/
theorem fsmChangesOnly : Obligations.FsmChangesOnly := by
  refine ⟨⟨rfl, rfl, rfl, by decide⟩, ?_, ?_⟩
  · intro f
    cases f with
    | rowActive r => revert r; decide
    | uninit => decide
    | bankInit => decide
    | faulted => decide
  · intro s t h hr hne
    rcases step_block_cases h hr with ht | ⟨hb, e, rest, hp, ht⟩ | ⟨hb, hp, -, w, f, hw, hk, ht⟩ |
      ⟨-, -, -, w, es, post, -, -, ht⟩
    · exact absurd (by rw [ht]) hne
    · cases rest with
      | nil => exact ⟨hb, .inr ⟨e, hp, by rw [ht]; rfl⟩⟩
      | cons e' rest => exact absurd (by rw [ht]; rfl) hne
    · exact ⟨hb, .inl ⟨hp, by rw [ht], w, f, hw, hk, by rw [ht]⟩⟩
    · exact absurd (by rw [ht]) hne

/-- An event that changes the level of a line writes that line. -/
theorem event_of_get_perform_ne {ls : Lines} {e : Event} {l : Line} (h : (ls.perform e).get l ≠ ls.get l) :
    ∃ v, e = .set l v := by
  cases e with
  | delay ms => exact absurd rfl h
  | set m v =>
    by_cases hm : l = m
    · exact ⟨v, by rw [hm]⟩
    · exact absurd (lines_get_set_other ls v hm) h

/-- Settles O11: of the four things a step can do to the block, only the head event writes lines, and it writes one. -/
theorem linesChangeOnlyByEvents : Obligations.LinesChangeOnlyByEvents := by
  intro s t l h hr hne
  rcases step_block_cases h hr with ht | ⟨hb, e, rest, hp, ht⟩ | ⟨-, -, -, w, f, -, -, ht⟩ |
    ⟨-, -, -, w, es, post, -, -, ht⟩
  · exact absurd (by rw [ht]) hne
  · have hl : t.block.lines = s.block.lines.perform e := by rw [ht]
    rw [hl] at hne ⊢
    obtain ⟨v, rfl⟩ := event_of_get_perform_ne hne
    exact ⟨hb, v, rest, hp, by rw [ht], lines_get_set_same _ l v, fun m hm => lines_get_set_other _ v hm⟩
  · exact absurd (by rw [ht]) hne
  · exact absurd (by rw [ht]) hne

/-! ### The observer: sampling and latching -/

@[simp] theorem commit_sr (o : Observer) (sb : Bool) : (o.commit sb).sr = o.sr := by
  cases sb <;> rfl
@[simp] theorem commit_high_out0 (o : Observer) : (o.commit true).out0 = o.out0 := rfl
@[simp] theorem commit_low_out1 (o : Observer) : (o.commit false).out1 = o.out1 := rfl
@[simp] theorem commit_high_out1 (o : Observer) : (o.commit true).out1 = lastBits 192 o.sr o.draws := rfl
@[simp] theorem commit_low_out0 (o : Observer) : (o.commit false).out0 = lastBits 144 o.sr o.draws := rfl

/-- A transition of LAT, to either level, samples and clears nothing (R23, R27). -/
@[simp] theorem observe_lat_sr (edge : LatchEdge) (ls : Lines) (v : Bool) (o : Observer) :
    (o.observe edge ls (.set .lat v)).sr = o.sr := by
  simp only [Observer.observe]
  split <;> simp

/-- Settles O44, by the line that the event writes. -/
theorem samplesOnlyRisingEdge : Obligations.SamplesOnlyRisingEdge := by
  intro edge ls e o
  cases e with
  | delay ms => simp
  | set l v =>
    cases l with
    | sck => cases v <;> cases hs : ls.sck <;> simp [Observer.observe, hs]
    | rst => cases v <;> cases hs : ls.rst <;> simp [Observer.observe, hs]
    | lat => simp
    | sda => simp
    | sb => simp
    | row r => simp

/-- Where SR is long enough, a bank takes its last n bits, whatever the draw (R24). -/
theorem toList_lastBits {n : Nat} {sr : List Bool} (draw : Nat) (h : n ≤ sr.length) :
    (lastBits n sr draw).toList = sr.drop (sr.length - n) := by
  conv_lhs => rw [← List.take_append_drop (sr.length - n) sr]
  exact lastBits_append n _ _ draw (by simp; omega)

/-- What a latch pulse leaves of the observer: one commit, or two of the same SR when LAT was at 0 and the rising transition
commits (R24, R92). -/
theorem observeAll_pulseLatch (edge : LatchEdge) (ls : Lines) (o : Observer) :
    o.observeAll edge ls pulseLatch = o.commit ls.sb ∨
    o.observeAll edge ls pulseLatch = (o.commit ls.sb).commit ls.sb := by
  cases edge <;> cases hl : ls.lat <;>
    simp [pulseLatch, Observer.observeAll, Observer.observe, commitLevel, Lines.perform, Lines.set, hl]

theorem observeAll_pulseLatch_sr (edge : LatchEdge) (ls : Lines) (o : Observer) :
    (o.observeAll edge ls pulseLatch).sr = o.sr := by
  rcases observeAll_pulseLatch edge ls o with h | h <;> rw [h] <;> simp

/-- With SB at 1 a latch pulse loads bank 1 with the last 192 bits of SR and keeps bank 0, from either level of LAT (R25). -/
theorem observeAll_pulseLatch_high (edge : LatchEdge) {ls : Lines} {o : Observer} (hs : ls.sb = true)
    (hn : 192 ≤ o.sr.length) :
    (o.observeAll edge ls pulseLatch).out1.toList = o.sr.drop (o.sr.length - 192) ∧
    (o.observeAll edge ls pulseLatch).out0 = o.out0 := by
  rcases observeAll_pulseLatch edge ls o with h | h <;> rw [h, hs] <;> simp [toList_lastBits _ hn]

/-- With SB at 0 a latch pulse loads bank 0 with the last 144 bits of SR and keeps bank 1, from either level of LAT (R25). -/
theorem observeAll_pulseLatch_low (edge : LatchEdge) {ls : Lines} {o : Observer} (hs : ls.sb = false)
    (hn : 144 ≤ o.sr.length) :
    (o.observeAll edge ls pulseLatch).out0.toList = o.sr.drop (o.sr.length - 144) ∧
    (o.observeAll edge ls pulseLatch).out1 = o.out1 := by
  rcases observeAll_pulseLatch edge ls o with h | h <;> rw [h, hs] <;> simp [toList_lastBits _ hn]

/-- Settles O45: the level of LAT before the pulse does not matter. -/
theorem latchPulseCommits : Obligations.LatchPulseCommits := fun edge ls o _ =>
  ⟨observeAll_pulseLatch_high edge, observeAll_pulseLatch_low edge, observeAll_pulseLatch_sr edge ls o⟩

/-! ### The observer follows a list of sent bytes -/

/-- A bit cell samples its bit, whatever the lines were (R80, R23). -/
theorem observeAll_sendBit (edge : LatchEdge) (ls : Lines) (o : Observer) (b : Bool) :
    o.observeAll edge ls (sendBit b) = { o with sr := o.sr ++ [b] } := rfl

theorem observeAll_sendBits (edge : LatchEdge) (ls : Lines) (o : Observer) (bits : List Bool) :
    o.observeAll edge ls (bits.flatMap sendBit) = { o with sr := o.sr ++ bits } := by
  induction bits generalizing ls o with
  | nil => simp [Observer.observeAll]
  | cons b bits ih => rw [List.flatMap_cons, observeAll_append, observeAll_sendBit, ih]; simp

theorem sendBytes_eq_sendBits (xs : List Byte) : sendBytes xs = (xs.flatMap byteBits).flatMap sendBit := by
  rw [List.flatMap_assoc]
  rfl

/-- Sent bytes are appended to SR bit by bit, and no bank changes (R85). -/
theorem observeAll_sendBytes (edge : LatchEdge) (ls : Lines) (o : Observer) (xs : List Byte) :
    o.observeAll edge ls (sendBytes xs) = { o with sr := o.sr ++ xs.flatMap byteBits } := by
  rw [sendBytes_eq_sendBits, observeAll_sendBits]

/-! ### Which lines a trace writes -/

/-- A list of events writes line l nowhere. -/
def Spares (es : List Event) (l : Line) : Prop := ∀ v, Event.set l v ∉ es

theorem spares_append {es fs : List Event} {l : Line} : Spares (es ++ fs) l ↔ Spares es l ∧ Spares fs l := by
  simp [Spares, forall_and]

theorem Spares.tail {e : Event} {es : List Event} {l : Line} (h : Spares (e :: es) l) : Spares es l :=
  fun v hv => h v (List.mem_cons_of_mem _ hv)

theorem Spares.get_perform {e : Event} {es : List Event} {l : Line} (h : Spares (e :: es) l) (ls : Lines) :
    (ls.perform e).get l = ls.get l := by
  by_contra hne
  obtain ⟨v, rfl⟩ := event_of_get_perform_ne hne
  exact h v List.mem_cons_self

/-- A line that no event writes keeps its level (R11). -/
theorem Spares.get_performAll {es : List Event} {l : Line} (h : Spares es l) (ls : Lines) :
    (ls.performAll es).get l = ls.get l := by
  induction es generalizing ls with
  | nil => rfl
  | cons e es ih => rw [performAll_cons, ih h.tail, h.get_perform]

/-- SEND_BYTE writes SDA and SCK only (R81). -/
theorem spares_sendBytes {l : Line} (hd : l ≠ .sda) (hk : l ≠ .sck) (xs : List Byte) : Spares (sendBytes xs) l := by
  intro v hv
  simp only [sendBytes, sendByte, List.mem_flatMap] at hv
  obtain ⟨-, -, b, -, hb⟩ := hv
  simp [sendBit, pulseClock, hd, hk] at hb

theorem spares_pulseLatch {l : Line} (hl : l ≠ .lat) : Spares pulseLatch l := by
  intro v
  simp [pulseLatch, hl]

/-- ROW_TRACE writes neither SB nor RST (R108). -/
theorem spares_rowEvents {l : Line} (hl : l = .sb ∨ l = .rst) (g : Byte → Byte) (r : Fin 8) (p : Vector Byte 24) :
    Spares (rowEvents g r p) l := by
  have hrow : ∀ (k : Fin 8) (b : Bool), Spares [.set (.row k) b] l := by
    rcases hl with rfl | rfl <;> simp [Spares]
  have hsend : ∀ xs, Spares (sendBytes xs) l := by
    rcases hl with rfl | rfl <;> exact spares_sendBytes (by decide) (by decide)
  have hlatch : Spares pulseLatch l := by
    rcases hl with rfl | rfl <;> exact spares_pulseLatch (by decide)
  simp only [rowEvents, spares_append]
  exact ⟨⟨⟨⟨hsend _, hrow _ _⟩, hsend _⟩, hlatch⟩, hrow _ _⟩

/-! ### A busy block runs its trace -/

/-- With only the block's own turns a step of a busy block is its head event (R101), after which the chip settles. -/
theorem step_of_pend {s : State} {e : Event} {rest : List Event} (ht : s.turns = []) (hp : s.block.pend = e :: rest) :
    step s = .next (settle (eventStep e rest s)) := by
  simp [step, nextTurn, ht, blockTurn, hp]

/-- The state once the first n pending events have been performed with the chip out of reset (R101, R102). -/
def afterEvents (n : Nat) (s : State) : State :=
  { s with
    block := { s.block with
      lines := s.block.lines.performAll (s.block.pend.take n)
      pend := s.block.pend.drop n
      fsm := if s.block.pend.drop n = [] then s.block.post else s.block.fsm }
    chip := s.chip.observeAll Config.latchEdge s.block.lines (s.block.pend.take n) }

theorem afterEvents_zero {s : State} (hp : s.block.pend ≠ []) : afterEvents 0 s = s := by
  simp [afterEvents, hp, Observer.observeAll]

/-- With RST at 1 an event that does not write RST leaves nothing to draw (R27). -/
theorem settle_eventStep {s : State} {e : Event} {rest : List Event} (hrst : s.block.lines.rst = true)
    (hs : Spares (e :: rest) .rst) : settle (eventStep e rest s) = eventStep e rest s :=
  settle_of_rst _ ((hs.get_perform s.block.lines).trans hrst)

/-- n steps of a busy block that has only its own turns, with the chip out of reset and a trace that leaves RST alone, perform the
first n events of the trace, and the chip observes each (R101, R184). -/
theorem runSteps_afterEvents (n : Nat) {s : State} (ht : s.turns = []) (hrst : s.block.lines.rst = true)
    (hs : Spares s.block.pend .rst) (hp : s.block.pend ≠ []) (hn : n ≤ s.block.pend.length) :
    runSteps n s = .next (afterEvents n s) := by
  induction n generalizing s with
  | zero => rw [afterEvents_zero hp]; rfl
  | succ n ih =>
    obtain ⟨e, rest, hpe⟩ := List.exists_cons_of_ne_nil hp
    rw [hpe] at hs hn
    have hstep : runSteps (n + 1) s = runSteps n (eventStep e rest s) := by
      rw [runSteps, step_of_pend ht hpe, settle_eventStep hrst hs]
    rw [hstep]
    cases rest with
    | nil =>
      obtain rfl : n = 0 := by simpa using hn
      simp [runSteps, afterEvents, eventStep, hpe, Observer.observeAll]
    | cons e' rest =>
      have hrst' : (eventStep e (e' :: rest) s).block.lines.rst = true := (hs.get_perform s.block.lines).trans hrst
      rw [ih (s := eventStep e (e' :: rest) s) ht hrst' hs.tail (List.cons_ne_nil _ _) (Nat.le_of_succ_le_succ hn)]
      simp [afterEvents, eventStep, hpe, Observer.observeAll]

/-- The state once a whole trace has been performed with the chip out of reset (R101, R102). -/
def afterTrace (es : List Event) (post : Fsm) (s : State) : State :=
  { s with
    block := { s.block with lines := s.block.lines.performAll es, pend := [], fsm := post, post := post }
    chip := s.chip.observeAll Config.latchEdge s.block.lines es }

/-- A trace that leaves RST alone runs to its end, the chip out of reset (R102, R184). -/
theorem runSteps_startTrace {es : List Event} (post : Fsm) {s : State} (ht : s.turns = []) (hrst : s.block.lines.rst = true)
    (hs : Spares es .rst) (hne : es ≠ []) :
    runSteps es.length (startTrace es post s) = .next (afterTrace es post s) := by
  have hrun := runSteps_afterEvents es.length (s := startTrace es post s) ht hrst hs hne le_rfl
  simpa [afterEvents, afterTrace, startTrace] using hrun

/-! ### SEND_ROW: its acceptance and its stream -/

theorem check_sendRow_of_ready {fsm : Fsm} {r : BitVec 8} (hf : fsm.ready = true) (hr : r.toNat < 8) :
    check (.ok (.sendRow r)) fsm = none := by
  have hu : fsm ≠ .uninit := by rintro rfl; cases hf
  have h7 : ¬ 7 < r.toNat := by omega
  simp [check, hu, h7]

/-- The acceptance of SEND_ROW r after INIT starts the trace of row r of the frame read now (R108). -/
theorem exec_sendRow_of_ready {s : State} (r : Fin 8) (hp : s.block.pend = []) (hf : s.block.fsm.ready = true) :
    exec (.sendRow (BitVec.ofNat 8 r.val)) s =
      .next (startTrace (rowEvents Config.gamma r (s.block.fb.rowBytes r)) (.rowActive r) (takeWord s)) := by
  have hv : (BitVec.ofNat 8 r.val).toNat = r.val := by simp; omega
  have hlt : (BitVec.ofNat 8 r.val).toNat < 8 := by rw [hv]; exact r.isLt
  have hrow : (⟨(BitVec.ofNat 8 r.val).toNat, hlt⟩ : Fin 8) = r := Fin.ext hv
  have hfault : s.block.fsm ≠ .faulted := by intro h; rw [h] at hf; cases hf
  have htrace := sendRowTrace_eq Config.gamma _ hlt s.block.fb
  rw [hrow] at htrace
  exact accept_of_ok ((canAccept_iff _).mpr ⟨hp, hfault⟩) (check_sendRow_of_ready hf hlt) htrace

/-- The row stream is the row in reverse address order, through the table (R83). -/
theorem rowStream_eq (g : Byte → Byte) (p : Vector Byte 24) :
    rowStream g p = (List.finRange 24).map fun j : Fin 24 => g (p[23 - j.val]'(by omega)) := rfl

@[simp] theorem length_rowStream (g : Byte → Byte) (p : Vector Byte 24) : (rowStream g p).length = 24 := rfl

@[simp] theorem length_byteBits (x : Byte) : (byteBits x).length = 8 := rfl

theorem length_flatMap_byteBits (xs : List Byte) : (xs.flatMap byteBits).length = 8 * xs.length := by
  induction xs with
  | nil => rfl
  | cons x xs ih => rw [List.flatMap_cons, List.length_append, ih, length_byteBits, List.length_cons]; omega

@[simp] theorem length_sendBytes (xs : List Byte) : (sendBytes xs).length = 32 * xs.length := by
  induction xs with
  | nil => rfl
  | cons x xs ih =>
    have hx : (sendByte x).length = 32 := rfl
    rw [sendBytes, List.flatMap_cons, List.length_append, hx, ← sendBytes, ih, List.length_cons]
    omega

/-- A row's trace has 773 events (R108). -/
@[simp] theorem length_rowEvents (g : Byte → Byte) (r : Fin 8) (p : Vector Byte 24) :
    (rowEvents g r p).length = 773 := by
  simp [rowEvents, pulseLatch, Config.deactAfterBytes]

/-- ROW_TRACE leaves C_r at 1: its last event writes it (R108). -/
theorem rows_performAll_rowEvents (g : Byte → Byte) (r : Fin 8) (p : Vector Byte 24) (ls : Lines) :
    (ls.performAll (rowEvents g r p)).rows[r] = true := by
  rw [rowEvents, performAll_append]
  exact lines_get_set_same _ (.row r) true

/-- The stream of a row is sampled whole, the row line written in its middle notwithstanding (R108, R85). -/
theorem observeAll_rowShift (edge : LatchEdge) (ls : Lines) (o : Observer) (k : Fin 8) (v : Bool) (n : Nat)
    (xs : List Byte) :
    o.observeAll edge ls (sendBytes (xs.take n) ++ [.set (.row k) v] ++ sendBytes (xs.drop n)) =
      { o with sr := o.sr ++ xs.flatMap byteBits } := by
  have hbits : xs.flatMap byteBits = (xs.take n).flatMap byteBits ++ (xs.drop n).flatMap byteBits := by
    rw [← List.flatMap_append, List.take_append_drop]
  rw [observeAll_append, observeAll_append, observeAll_sendBytes, observeAll_sendBytes, hbits]
  simp [Observer.observeAll]

/-- What ROW_TRACE with SB at 1 leaves in the banks: bank 1 holds the bits of the row stream in the order sent, and bank 0 is
untouched, whichever transition of LAT commits (R24, R85). -/
theorem observeAll_rowEvents (edge : LatchEdge) {ls : Lines} (o : Observer) (g : Byte → Byte) (r : Fin 8)
    (p : Vector Byte 24) (hs : ls.sb = true) :
    (o.observeAll edge ls (rowEvents g r p)).out1.toList = (rowStream g p).flatMap byteBits ∧
    (o.observeAll edge ls (rowEvents g r p)).out0 = o.out0 := by
  have hlen : ((rowStream g p).flatMap byteBits).length = 192 := by rw [length_flatMap_byteBits, length_rowStream]
  have hspare : Spares (sendBytes ((rowStream g p).take Config.deactAfterBytes) ++ [.set (.row (prevRow r)) false] ++
      sendBytes ((rowStream g p).drop Config.deactAfterBytes)) .sb :=
    (spares_append.mp (spares_append.mp (spares_rowEvents (.inl rfl) g r p)).1).1
  have hlatch := observeAll_pulseLatch_high edge (o := { o with sr := o.sr ++ (rowStream g p).flatMap byteBits })
    ((hspare.get_performAll ls).trans hs) (by simp [hlen])
  rw [rowEvents, observeAll_append, observeAll_append, observeAll_rowShift]
  simpa [hlen, Observer.observeAll] using hlatch

/-! ### What the row shows -/

/-- Bit k of byte j, MSB first, in the bits of a list of bytes. -/
theorem getElem?_flatMap_byteBits (xs : List Byte) {j k : Nat} (hj : j < xs.length) (hk : k < 8) :
    (xs.flatMap byteBits)[8 * j + k]? = some (xs[j].getLsbD (7 - k)) := by
  induction xs generalizing j with
  | nil => simp at hj
  | cons x xs ih =>
    rw [List.flatMap_cons]
    cases j with
    | zero =>
      rw [List.getElem?_append_left (by simpa using hk)]
      interval_cases k <;> rfl
    | succ j =>
      rw [List.getElem?_append_right (by simp; omega), length_byteBits,
        show 8 * (j + 1) + k - 8 = 8 * j + k by omega, ih (Nat.lt_of_succ_lt_succ hj)]
      rfl

/-- A bank that holds the bits of a list of bytes in the order sent has those bytes (R26). -/
theorem bankByte_of_toList {bank : Vector Bool 192} {xs : List Byte} (h : bank.toList = xs.flatMap byteBits)
    (j : Fin 24) (hj : j.val < xs.length) : bankByte bank j = xs[j.val] := by
  ext i hi
  have hbit := getElem?_flatMap_byteBits xs hj (show 7 - i < 8 by omega)
  rw [← h, Vector.getElem?_toList, Vector.getElem?_eq_getElem (by omega), show 7 - (7 - i) = i by omega] at hbit
  rw [← BitVec.getLsbD_eq_getElem]
  simpa [bankByte, hi] using hbit

/-- The stream byte that drives column c and channel ch is the byte of that pixel, through the table (R26, R31). -/
theorem rowStream_driveByte (g : Byte → Byte) (m : Memory) (r c : Fin 8) (ch : Channel) :
    (rowStream g (m.rowBytes r))[(driveByte c ch).val]'(by rw [length_rowStream]; exact (driveByte c ch).isLt) =
      g (m.read (frameAddr r c ch)) := by
  have haddr : (⟨24 * r.val + (23 - (driveByte c ch).val), by omega⟩ : Fin 192) = frameAddr r c ch := by
    apply Fin.ext
    simp only [driveByte, frameAddr]
    omega
  simp [rowStream_eq, haddr]

/-- A row that is on shows the drive values of bank 1 (R26). -/
theorem shown_of_on {s : State} {r : Fin 8} (h : s.block.lines.rows[r] = true) (c : Fin 8) (ch : Channel) :
    s.shown r c ch = some (bankByte s.chip.out1 (driveByte c ch)) := if_pos h

/-- The whole trace of row r runs in 773 steps (R108). -/
theorem runSteps_rowEvents {s : State} (g : Byte → Byte) (r : Fin 8) (p : Vector Byte 24) (post : Fsm) (ht : s.turns = [])
    (hrst : s.block.lines.rst = true) :
    runSteps 773 (startTrace (rowEvents g r p) post s) = .next (afterTrace (rowEvents g r p) post s) := by
  have hne : rowEvents g r p ≠ [] := by simp [rowEvents]
  have hrun := runSteps_startTrace post ht hrst (spares_rowEvents (.inr rfl) g r p) hne
  rwa [length_rowEvents] at hrun

/-- Settles O22: the trace of row r loads bank 1 with the row stream, and its last event turns the row on. -/
theorem sentRowIsShown : Obligations.SentRowIsShown := by
  intro s r ht hp hf hrst hsb
  obtain ⟨hout1, hout0⟩ :=
    observeAll_rowEvents Config.latchEdge s.chip Config.gamma r (s.block.fb.rowBytes r) hsb
  have hrun := runSteps_rowEvents (s := takeWord s) Config.gamma r (s.block.fb.rowBytes r) (.rowActive r) ht hrst
  refine ⟨_, _, exec_sendRow_of_ready r hp hf, hrun, fun c ch => ?_, hout0⟩
  refine (shown_of_on ?_ c ch).trans ?_
  · exact rows_performAll_rowEvents Config.gamma r (s.block.fb.rowBytes r) s.block.lines
  · exact congrArg some ((bankByte_of_toList hout1 _ _).trans (rowStream_driveByte Config.gamma s.block.fb r c ch))

end Sys2Proof.Proofs

/-! PROOFS. The frame buffer (20_memory.md): the frame layout, the pixel view, and the canonical form. -/

namespace Sys2Proof.Proofs

open Sys2Proof.Machine Sys2Proof.Laws

/-! ### The frame layout and the pixel view -/

@[simp] theorem toFin_ofFin (k : Fin 3) : (Channel.ofFin k).toFin = k := by
  revert k
  decide

/-- The address of a channel of a pixel is a exactly where a's row, column and channel are these (R31). -/
theorem frameAddr_eq_iff (row col : Fin 8) (ch : Channel) (a : Fin 192) :
    frameAddr row col ch = a ↔
      row.val = a.val / 3 / 8 ∧ col.val = a.val / 3 % 8 ∧ ch.toFin.val = a.val % 3 := by
  simp only [frameAddr, Fin.ext_iff]
  omega

@[simp] theorem frameAddr_addr (a : Fin 192) : frameAddr (addrRow a) (addrCol a) (addrChannel a) = a :=
  (frameAddr_eq_iff _ _ _ a).mpr ⟨rfl, rfl, congrArg Fin.val (toFin_ofFin _)⟩

/-- Settles O32: the address and its row, column and channel are inverse to each other. -/
theorem frameLayout : Obligations.FrameLayout :=
  ⟨fun row col ch => ⟨rfl, addrRow_frameAddr row col ch, addrCol_frameAddr row col ch, addrChannel_frameAddr row col ch⟩,
    frameAddr_addr, rfl, rfl, rfl⟩

/-- The pixel view and the byte view are the same storage (R32). -/
theorem channel_pixel (m : Memory) (row col : Fin 8) (ch : Channel) :
    (m.pixel row col).channel ch = m.read (frameAddr row col ch) := by
  cases ch with
  | r => rfl
  | g => rfl
  | b => rfl

/-- A write of one byte changes what that address reads as, and no other (R5). -/
theorem read_memWrite_byte (m : Memory) (a b : Fin 192) (x : Byte) :
    (m.memWrite a.val 1 (Vector.replicate 1 x) (by omega)).read b = if b = a then x else m.read b := by
  have hba : (a.val ≤ b.val ∧ b.val < a.val + 1) ↔ b = a := by
    rw [Fin.ext_iff]
    omega
  simp only [read_memWrite, Vector.getElem_replicate, dite_eq_ite, hba]

/-- Settles O33: the byte at address a is one channel of one pixel, by the layout. -/
theorem byteWriteChangesOneChannel : Obligations.ByteWriteChangesOneChannel := by
  refine ⟨fun m row col ch a ha => ?_, fun m a x row col ch => ?_⟩
  · have haddr : frameAddr row col ch = a := (frameAddr_eq_iff row col ch a).mpr (by omega)
    rw [channel_pixel, haddr]
  · rw [channel_pixel, channel_pixel, read_memWrite_byte]
    simp only [frameAddr_eq_iff]

/-! ### The canonical form of a frame buffer -/

theorem wf_iff (m : Memory) :
    m.wf = true ↔ (m.cells.Pairwise fun c d => c.1 < d.1) ∧ ∀ c ∈ m.cells, Memory.cellWf c = true := by
  simp [Memory.wf]

theorem cellWf_iff (c : Host.Cell) :
    Memory.cellWf c = true ↔ ∃ h : c.1 < 192, c.2 ≠ Memory.unlisted ⟨c.1, h⟩ := by
  unfold Memory.cellWf
  split <;> simp [*]

/-- Where the addresses rise strictly, the byte listed for an address is the one byte its cell holds. -/
theorem lookup_eq_some_iff {cs : List Host.Cell} (h : cs.Pairwise fun c d => c.1 < d.1) (a : Nat) (x : Byte) :
    Memory.lookup a cs = some x ↔ (a, x) ∈ cs := by
  induction cs with
  | nil => simp [Memory.lookup]
  | cons c cs ih =>
    obtain ⟨hc, hcs⟩ := List.pairwise_cons.mp h
    by_cases hca : c.1 = a
    · have hnot : (a, x) ∉ cs := fun hmem => absurd (hc _ hmem) (by simp [hca])
      simp [Memory.lookup, hca, hnot, Prod.ext_iff, eq_comm]
    · simp [Memory.lookup, hca, ih hcs, Prod.ext_iff, eq_comm]

/-- The cells of a canonical memory are the addresses that read otherwise than unlisted, with what they read as (log 6). -/
theorem mem_cells_iff {m : Memory} (hm : m.wf = true) (c : Host.Cell) :
    c ∈ m.cells ↔ ∃ h : c.1 < 192, m.read ⟨c.1, h⟩ = c.2 ∧ c.2 ≠ Memory.unlisted ⟨c.1, h⟩ := by
  obtain ⟨hrise, hcells⟩ := (wf_iff m).mp hm
  have hlook := lookup_eq_some_iff hrise c.1 c.2
  constructor
  · intro hc
    obtain ⟨h, hne⟩ := (cellWf_iff c).mp (hcells c hc)
    exact ⟨h, by simp [Memory.read, hlook.mpr hc], hne⟩
  · rintro ⟨h, hread, hne⟩
    apply hlook.mp
    cases hl : Memory.lookup c.1 m.cells with
    | none => exact absurd (by simpa [Memory.read, hl] using hread.symm) hne
    | some x => simpa [Memory.read, hl] using hread

/-- Settles O36: the cells are determined by what the memory reads as, and their order by the addresses. -/
theorem canonicalMemoriesEqual : Obligations.CanonicalMemoriesEqual := by
  intro m n hm hn hread
  have hmem : ∀ c, c ∈ m.cells ↔ c ∈ n.cells := by
    intro c
    simp only [mem_cells_iff hm, mem_cells_iff hn, hread]
  have hcells : m.cells = n.cells :=
    List.Pairwise.eq_of_mem_iff (r := InvImage (· < ·) Prod.fst)
      ((wf_iff m).mp hm).1 ((wf_iff n).mp hn).1 hmem
  cases m
  cases n
  exact congrArg Memory.mk hcells

end Sys2Proof.Proofs

/-! PROOFS. The encoding (30_encoding.md): the decoder and the encoder by the fields of a word, and what an illegal word does. -/

namespace Sys2Proof.Proofs

open Sys2Proof.Machine Sys2Proof.Laws

/-! ### The decoder, opcode by opcode -/

/-- An opcode is reserved, or one of the three that name a command (R53). -/
theorem opcode_cases : ∀ o : BitVec 4, (o = 0x0 ∨ 0x4 ≤ o.toNat) ∨ o = 0x1 ∨ o = 0x2 ∨ o = 0x3 := by decide

/-- An opcode that is reserved names no command (R55). -/
theorem not_command_of_reserved :
    ∀ o : BitVec 4, (o = 0x0 ∨ 0x4 ≤ o.toNat) → o ≠ 0x1 ∧ o ≠ 0x2 ∧ o ≠ 0x3 := by decide

theorem decode_of_reservedField_ne {w : Word} (hb : reservedField w ≠ 0) : decode w = .error .reservedByte :=
  if_pos hb

theorem decode_of_opc_init {w : Word} (hb : reservedField w = 0) (ho : opcField w = 0x1) :
    decode w = if rowField w = 0 then .ok .init else .error .rowField := by
  rw [decode, if_neg (not_not.mpr hb), if_pos ho]

theorem decode_of_opc_sendRow {w : Word} (hb : reservedField w = 0) (ho : opcField w = 0x2) :
    decode w = .ok (.sendRow ((rowField w).zeroExtend 8)) := by
  rw [decode, if_neg (not_not.mpr hb), ho, if_neg (by decide), if_pos rfl]

theorem decode_of_opc_displayFrame {w : Word} (hb : reservedField w = 0) (ho : opcField w = 0x3) :
    decode w = if rowField w = 0 then .ok .displayFrame else .error .rowField := by
  rw [decode, if_neg (not_not.mpr hb), ho, if_neg (by decide), if_neg (by decide), if_pos rfl]

theorem decode_of_opc_reserved {w : Word} (hb : reservedField w = 0)
    (ho : opcField w = 0x0 ∨ 0x4 ≤ (opcField w).toNat) : decode w = .error .reservedOpcode := by
  obtain ⟨h1, h2, h3⟩ := not_command_of_reserved _ ho
  rw [decode, if_neg (not_not.mpr hb), if_neg h1, if_neg h2, if_neg h3]

/-! ### Decode and encode agree -/

/-- Every command the decoder answers is well formed: its row operand is four bits, zero-extended (R54). -/
theorem wellFormed_of_decode {w : Word} {i : Instr} (h : decode w = .ok i) : i.wellFormed = true := by
  unfold decode at h
  split_ifs at h <;> cases h
  · rfl
  · have hrow : (rowField w).toNat < 16 := (rowField w).isLt
    simp only [Instr.wellFormed, BitVec.truncate_eq_setWidth, BitVec.toNat_setWidth, decide_eq_true_eq]
    omega
  · rfl

@[simp] theorem opcField_append (o r : BitVec 4) (b : BitVec 8) : opcField (o ++ r ++ b) = o :=
  (BitVec.extractLsb'_append_eq_of_le (by decide)).trans <|
    (BitVec.extractLsb'_append_eq_of_le (by decide)).trans BitVec.extractLsb'_eq_self

@[simp] theorem rowField_append (o r : BitVec 4) (b : BitVec 8) : rowField (o ++ r ++ b) = r :=
  (BitVec.extractLsb'_append_eq_of_le (by decide)).trans BitVec.extractLsb'_append_eq_right

@[simp] theorem reservedField_append (o r : BitVec 4) (b : BitVec 8) : reservedField (o ++ r ++ b) = b :=
  BitVec.extractLsb'_append_eq_right

/-- A well-formed row operand is the zero-extension of a row field (R54). -/
theorem exists_zeroExtend_of_wellFormed {r : BitVec 8} (h : (Instr.sendRow r).wellFormed = true) :
    ∃ q : BitVec 4, q.zeroExtend 8 = r := by
  have hr : r.toNat < 16 := of_decide_eq_true h
  refine ⟨r.setWidth 4, BitVec.eq_of_toNat_eq ?_⟩
  simp only [BitVec.truncate_eq_setWidth, BitVec.toNat_setWidth]
  omega

/-- The decoder takes back the encoding of every well-formed command (R56, R57). -/
theorem decode_encode {i : Instr} (h : i.wellFormed = true) : decode (encode i) = .ok i := by
  cases i with
  | init => rfl
  | sendRow r =>
    obtain ⟨q, rfl⟩ := exists_zeroExtend_of_wellFormed h
    rw [encode_sendRow_zeroExtend,
      decode_of_opc_sendRow (reservedField_append 0x2#4 q 0x0#8) (opcField_append 0x2#4 q 0x0#8), rowField_append]
  | displayFrame => rfl

/-- Settles O1: what the decoder answers is well formed and encodes back to the word, and an encoding decodes to its command. -/
theorem decodeIffEncode : Obligations.DecodeIffEncode := by
  intro w i
  constructor
  · intro h
    exact ⟨wellFormed_of_decode h, encode_of_decode h⟩
  · rintro ⟨hwf, rfl⟩
    exact decode_encode hwf

/-- Settles O2: the decoder evaluated on each word. -/
theorem writtenWordsDecode : Obligations.WrittenWordsDecode :=
  ⟨rfl, rfl, rfl, rfl, rfl, rfl, rfl, rfl, rfl, rfl⟩

/-! ### Illegal words -/

/-- An answer that is a command under a condition is an error exactly outside it. -/
theorem exists_ite_error_iff {ε α : Type} {c : Prop} [Decidable c] (a : α) (e : ε) :
    (∃ why, (if c then Except.ok a else Except.error e) = Except.error why) ↔ ¬c := by
  split <;> simp [*]

/-- Where the decoder answers an error, by the opcode: R55's three conditions over the fields of the word. -/
theorem exists_decode_error_iff (w : Word) :
    (∃ why, decode w = .error why) ↔
      ((opcField w = 0x0 ∨ 0x4 ≤ (opcField w).toNat) ∨
        ((opcField w = 0x1 ∨ opcField w = 0x3) ∧ rowField w ≠ 0) ∨
        ((opcField w = 0x1 ∨ opcField w = 0x2 ∨ opcField w = 0x3) ∧ reservedField w ≠ 0)) := by
  by_cases hb : reservedField w = 0
  · rcases opcode_cases (opcField w) with ho | ho | ho | ho
    · exact iff_of_true ⟨_, decode_of_opc_reserved hb ho⟩ (.inl ho)
    · rw [decode_of_opc_init hb ho, exists_ite_error_iff]
      simp [ho, hb]
    · rw [decode_of_opc_sendRow hb ho]
      simp [ho, hb]
    · rw [decode_of_opc_displayFrame hb ho, exists_ite_error_iff]
      simp [ho, hb]
  · refine iff_of_true ⟨_, decode_of_reservedField_ne hb⟩ ?_
    rcases opcode_cases (opcField w) with ho | ho
    · exact .inl ho
    · exact .inr (.inr ⟨ho, hb⟩)

/-- The turn of an idle block that is not FAULTED, with an illegal word waiting, enters ILLEGAL_COMMAND with the word (R55, R162). -/
theorem blockTurn_of_illegal {s : State} {w : Word} {why : Illegal} (hd : decode w = .error why)
    (hp : s.block.pend = []) (hf : s.block.fsm ≠ .faulted) (hw : s.host.port = some w) :
    blockTurn s = .next (raise .illegalCommand w (takeWord s)) := by
  have hc : s.block.canAccept = true := (canAccept_iff _).mpr ⟨hp, hf⟩
  simp [blockTurn, acceptPort, hp, hw, hd, acceptIllegal_eq, hc]

/-- Settles O3: the conditions are the error branches of the decoder, and the block's turn raises the fault on the waiting word. -/
theorem illegalWordsFault : Obligations.IllegalWordsFault := by
  intro w
  refine ⟨exists_decode_error_iff w, ?_⟩
  intro s why hd ht hp hf hw
  refine ⟨settle (raise .illegalCommand w (takeWord (popTurn s))), ?_, ?_, ?_⟩
  · rw [step_eq_turn, ht]
    have hb := blockTurn_of_illegal (s := popTurn s) hd hp hf hw
    rw [takeTurn, hb, mapNext_next]
  · rw [settle_block]
    simp [raise, hp]
  · rw [settle_host]
    rfl

end Sys2Proof.Proofs

/-! PROOFS. The gamma table (40_gamma_lut.md): `Config.gamma` reads a non-decreasing table at an index that repeats one entry, so
what the spec says of GAMMA is said of that index. -/

namespace Sys2Proof.Proofs

/-- The index `Config.gamma` reads the table at: the byte itself, but the flat index for the byte after it. -/
def gammaIndex (x : Byte) : Fin 256 :=
  if x.toNat = Config.gammaFlat.val + 1 then Config.gammaFlat.castSucc else x.toFin

theorem gamma_eq_gammaTable (x : Byte) : Config.gamma x = BitVec.ofFin (Config.gammaTable (gammaIndex x)) :=
  rfl

theorem gammaIndex_of_eq {x : Byte} (h : x.toNat = Config.gammaFlat.val + 1) :
    gammaIndex x = Config.gammaFlat.castSucc :=
  if_pos h

theorem gammaIndex_of_ne {x : Byte} (h : x.toNat ≠ Config.gammaFlat.val + 1) : gammaIndex x = x.toFin :=
  if_neg h

/-- The one byte that is moved, moves onto its predecessor, so the order of no two bytes is turned round. -/
theorem gammaIndex_mono {x y : Byte} (hxy : x ≤ y) : gammaIndex x ≤ gammaIndex y := by
  have hle : x.toNat ≤ y.toNat := BitVec.le_def.mp hxy
  by_cases hx : x.toNat = Config.gammaFlat.val + 1 <;> by_cases hy : y.toNat = Config.gammaFlat.val + 1
  · rw [gammaIndex_of_eq hx, gammaIndex_of_eq hy]
  · rw [gammaIndex_of_eq hx, gammaIndex_of_ne hy]
    change Config.gammaFlat.val ≤ y.toNat
    omega
  · rw [gammaIndex_of_ne hx, gammaIndex_of_eq hy]
    change x.toNat ≤ Config.gammaFlat.val
    omega
  · rw [gammaIndex_of_ne hx, gammaIndex_of_ne hy]
    exact hle

/-- Settles O54: the index keeps the order, and so does the table. -/
theorem gammaMonotone : Obligations.GammaMonotone := by
  intro x y hxy
  rw [gamma_eq_gammaTable, gamma_eq_gammaTable]
  exact BitVec.le_def.mpr (Config.gammaTable.monotone (gammaIndex_mono hxy))

/-- The byte of the flat index, where GAMMA repeats (R72). -/
def flatByte : Byte := BitVec.ofFin Config.gammaFlat.castSucc

theorem flatByte_toNat : flatByte.toNat = Config.gammaFlat.val :=
  rfl

theorem flatByte_succ_toNat : (flatByte + 1).toNat = Config.gammaFlat.val + 1 := by
  have hlt : Config.gammaFlat.val < 255 := Config.gammaFlat.isLt
  exact BitVec.toNat_add_of_lt (show Config.gammaFlat.val + 1 < 2 ^ 8 by omega)

theorem gammaIndex_flatByte_eq_succ : gammaIndex flatByte = gammaIndex (flatByte + 1) := by
  have hne : flatByte.toNat ≠ Config.gammaFlat.val + 1 := by
    rw [flatByte_toNat]
    omega
  rw [gammaIndex_of_ne hne, gammaIndex_of_eq flatByte_succ_toNat]
  rfl

/-- Settles O55, at the flat byte and the one after it. -/
theorem gammaNotInjective : Obligations.GammaNotInjective := by
  refine ⟨flatByte, ?_, ?_⟩
  · rw [flatByte_toNat]
    exact Nat.le_of_lt_succ Config.gammaFlat.isLt
  · rw [gamma_eq_gammaTable, gamma_eq_gammaTable, gammaIndex_flatByte_eq_succ]

end Sys2Proof.Proofs

/-! PROOFS. The pixel-to-serial serializer (41_serializer.md): the order of the row stream, the bits that sent bytes leave in SR,
and the lines after a byte. -/

namespace Sys2Proof.Proofs

open Sys2Proof.Machine Sys2Proof.Laws

/-- Settles O20: the columns go down from 7 and each is sent blue, green, red, which is the reverse of its addresses. -/
theorem rowStreamReversed : Obligations.RowStreamReversed :=
  rowStream_eq

/-! ### The bits of a byte, most significant first -/

theorem byteBits_eq_map (x : Byte) :
    byteBits x = (List.finRange 8).map fun k : Fin 8 => x.getLsbD (7 - k.val) := rfl

/-- Settles O43: the observer appends the bits of the bytes, and these are read from bit 7 down. -/
theorem sentBytesSampled : Obligations.SentBytesSampled := by
  intro edge ls o xs
  rw [observeAll_sendBytes, funext byteBits_eq_map]

/-! ### The events of a sent byte -/

theorem sendBit_eq (b : Bool) :
    sendBit b = [.set .sda b, .set .sck false, .set .sck true, .set .sck false] := rfl

theorem length_sendByte (x : Byte) : (sendByte x).length = 32 := by
  have hone : sendByte x = sendBytes [x] := (List.flatMap_singleton sendByte x).symm
  rw [hone, length_sendBytes, List.length_singleton]

/-- A bit cell leaves its bit on SDA and SCK at 0 (R80). -/
theorem performAll_sendBit (ls : Lines) (b : Bool) :
    ls.performAll (sendBit b) = { ls with sda := b, sck := false } := rfl

/-- Of several bit cells the last one decides SDA. -/
theorem performAll_sendBits_concat (ls : Lines) (bits : List Bool) (b : Bool) :
    ls.performAll ((bits ++ [b]).flatMap sendBit) = { ls with sda := b, sck := false } := by
  induction bits generalizing ls with
  | nil => rw [List.nil_append, List.flatMap_singleton, performAll_sendBit]
  | cons c bits ih => rw [List.cons_append, List.flatMap_cons, performAll_append, performAll_sendBit, ih]

theorem byteBits_eq_concat (x : Byte) : byteBits x = (byteBits x).dropLast ++ [x.getLsbD 0] := rfl

/-- Settles O56: the cells are those of the bits from 7 down to 0, and the last of them leaves bit 0 on SDA. -/
theorem sendByteCells : Obligations.SendByteCells := by
  intro x
  refine ⟨?cells, length_sendByte x, fun ls => ?lines⟩
  case cells => rw [sendByte, byteBits_eq_map, List.flatMap_map, funext sendBit_eq]
  case lines => rw [sendByte, byteBits_eq_concat, performAll_sendBits_concat]

end Sys2Proof.Proofs

/-! PROOFS. The line primitives (42_line_primitives.md): what they leave of the lines, from one event to a whole trace, and the
machine invariant, which every step of every agent keeps. -/

namespace Sys2Proof.Proofs

open Sys2Proof.Machine Sys2Proof.Laws

/-! ### ROW_SELECT -/

/-- ROW_SELECT of an integer outside 0..7 raises ROW_RANGE (R93). -/
theorem rowSelect_of_out_of_range {r : Int} (h : r < 0 ∨ 7 < r) (v : Bool) : rowSelect r v = .error .rowRange :=
  dif_neg (by omega)

/-- Settles O57: the one guard of ROW_SELECT holds of exactly the eight rows. -/
theorem rowSelectRange : Obligations.RowSelectRange := by
  intro r v
  refine ⟨?row, fun h => rowSelect_of_out_of_range h v⟩
  case row =>
    rintro k rfl
    exact rowSelect_of_row k v

/-! ### The lines after a trace -/

/-- PULSE_LATCH leaves LAT at 1 (R92). -/
theorem performAll_pulseLatch (ls : Lines) : ls.performAll pulseLatch = { ls with lat := true } := rfl

/-- Sent bytes leave SCK at 0 and write no line but SDA besides (R81, R91). -/
theorem performAll_sendBytes (xs : List Byte) {ls : Lines} (h : ls.sck = false) :
    ∃ d, ls.performAll (sendBytes xs) = { ls with sda := d } := by
  induction xs generalizing ls with
  | nil => exact ⟨ls.sda, rfl⟩
  | cons x xs ih =>
    obtain ⟨-, -, hbyte⟩ := sendByteCells x
    obtain ⟨d, hd⟩ := ih (ls := { ls with sda := x.getLsbD 0, sck := false }) rfl
    refine ⟨d, ?_⟩
    rw [sendBytes, List.flatMap_cons, performAll_append, hbyte, ← sendBytes, hd, ← h]

/-- INIT leaves SCK at 0 and LAT, SB and RST at 1, and writes no row line (R105). -/
theorem performAll_initTrace {ls : Lines} (h : ls.sck = false) :
    ∃ d, ls.performAll initTrace = { ls with sda := d, lat := true, sb := true, rst := true } := by
  obtain ⟨d, hd⟩ := performAll_sendBytes (List.replicate Config.initBytes 0xFF)
    (ls := { ls with rst := true, sb := false }) h
  refine ⟨d, ?_⟩
  have hbefore : ls.performAll (delay Config.resetHoldMs ++ setLine .rst true ++ setLine .sb false) =
      { ls with rst := true, sb := false } := rfl
  rw [initTrace, performAll_append, performAll_append, performAll_append, hbefore, initStream, hd, performAll_pulseLatch]
  rfl

/-- ROW_TRACE leaves SCK at 0 and LAT at 1, turns the previous row off and then row r on (R108, R109). -/
theorem performAll_rowEvents (g : Byte → Byte) (r : Fin 8) (p : Vector Byte 24) {ls : Lines} (h : ls.sck = false) :
    ∃ d, ls.performAll (rowEvents g r p) =
      { ls with sda := d, lat := true, rows := (ls.rows.set (prevRow r) false).set r true } := by
  obtain ⟨d₁, h₁⟩ := performAll_sendBytes ((rowStream g p).take Config.deactAfterBytes) h
  obtain ⟨d₂, h₂⟩ := performAll_sendBytes ((rowStream g p).drop Config.deactAfterBytes)
    (ls := { ls with sda := d₁, rows := ls.rows.set (prevRow r) false }) h
  have hoff : ({ ls with sda := d₁ } : Lines).performAll [.set (.row (prevRow r)) false] =
      { ls with sda := d₁, rows := ls.rows.set (prevRow r) false } := rfl
  refine ⟨d₂, ?_⟩
  rw [rowEvents, performAll_append, performAll_append, performAll_append, performAll_append, h₁, hoff, h₂,
    performAll_pulseLatch]
  rfl

/-- The trace of INIT has 583 events (R105). -/
theorem length_initTrace : initTrace.length = 583 := by
  simp [initTrace, delay, setLine, initStream, pulseLatch, Config.initBytes]

/-- The traces of several rows have 773 events each (R108, R115). -/
theorem length_flatMap_rowEvents (g : Byte → Byte) (p : Fin 8 → Vector Byte 24) (rs : List (Fin 8)) :
    (rs.flatMap fun r => rowEvents g r (p r)).length = rs.length * 773 := by
  simp [List.length_flatMap]

/-! ### The lines between traces -/

/-- What the invariant says of the lines at the end of a trace that leads to f (R91, R92, R105, R108, R113). -/
structure RestInv (ls : Lines) (f : Fsm) : Prop where
  clock : ls.sck = false
  latch : ls.lat = true
  powered : f.ready = true → ls.sb = true ∧ ls.rst = true
  dark : f = .bankInit → ls.rows = noRow
  lit : ∀ r : Fin 8, f = .rowActive r → ls.rows[r] = true

/-- A fault writes no line, and nothing more is claimed of the lines in FAULTED (R162). -/
theorem RestInv.faulted {ls : Lines} {f : Fsm} (h : RestInv ls f) : RestInv ls .faulted where
  clock := h.clock
  latch := h.latch
  powered := fun hf => Bool.noConfusion hf
  dark := fun hf => Fsm.noConfusion hf
  lit := fun _ hf => Fsm.noConfusion hf

/-- From the reset levels INIT leads to BANK_INIT with every row line at 0 (R105, R113). -/
theorem restInv_initTrace : RestInv (Lines.reset.performAll initTrace) .bankInit := by
  obtain ⟨d, hd⟩ := performAll_initTrace (ls := Lines.reset) rfl
  rw [hd]
  exact ⟨rfl, rfl, fun _ => ⟨rfl, rfl⟩, fun _ => rfl, fun _ hf => Fsm.noConfusion hf⟩

/-- After INIT, ROW_TRACE leads to ROW_ACTIVE(r) (R108). -/
theorem RestInv.after_rowEvents {ls : Lines} {f : Fsm} (h : RestInv ls f) (hf : f.ready = true) (g : Byte → Byte)
    (r : Fin 8) (p : Vector Byte 24) : RestInv (ls.performAll (rowEvents g r p)) (.rowActive r) := by
  have hon := rows_performAll_rowEvents g r p ls
  obtain ⟨d, hd⟩ := performAll_rowEvents g r p h.clock
  rw [hd] at hon ⊢
  exact ⟨h.clock, rfl, fun _ => h.powered hf, fun hr => Fsm.noConfusion hr, fun _ hr => Fsm.rowActive.inj hr ▸ hon⟩

/-- After INIT, the traces of several rows lead to the last of them, or leave all as it was when there is none (R115). -/
theorem RestInv.after_flatMap_rowEvents {ls : Lines} {f : Fsm} (h : RestInv ls f) (hf : f.ready = true) (g : Byte → Byte)
    (p : Fin 8 → Vector Byte 24) (rs : List (Fin 8)) :
    RestInv (ls.performAll (rs.flatMap fun r => rowEvents g r (p r))) (rs.foldl (fun _ r => .rowActive r) f) := by
  induction rs generalizing ls f with
  | nil => exact h
  | cons r rs ih =>
    rw [List.flatMap_cons, performAll_append]
    exact ih (h.after_rowEvents hf g r (p r)) rfl

/-! ### The block's part of the invariant -/

/-- The clauses of the invariant about the block, its frame buffer apart. -/
structure BlockInv (b : Block) : Prop where
  faultRecord : b.fsm = .faulted ↔ b.fault.cause ≠ .noFault
  noInfo : b.fault.cause = .noFault → b.fault.info = 0
  faultIdle : b.fsm = .faulted → b.pend = []
  post : b.pend ≠ [] → b.post.ready = true
  length : b.pend.length ≤ 6184
  uninit : b.finalFsm = .uninit → b.lines = Lines.reset
  rest : RestInv b.finalLines b.finalFsm

/-- The invariant is its clauses about the frame buffer, CURSOR and the rest of the block. -/
theorem machineInv_iff (s : State) :
    MachineInv s ↔ s.block.fb.wf = true ∧ s.host.cursor.val < 192 ∧ BlockInv s.block where
  mp h := ⟨h.memory, h.cursor, h.faultRecord, h.noInfo, h.faultIdle, h.post, h.length, h.uninit,
    h.clock, h.latch, h.powered, h.dark, h.lit⟩
  mpr := fun ⟨hm, hc, hb⟩ => ⟨hm, hc, hb.faultRecord, hb.noInfo, hb.faultIdle, hb.post, hb.length,
    hb.rest.clock, hb.rest.latch, hb.uninit, hb.rest.powered, hb.rest.dark, hb.rest.lit⟩

/-- The block after reset meets its part of the invariant (R20). -/
theorem blockInv_reset : BlockInv Block.reset := by
  obtain ⟨-, -, hb⟩ := (machineInv_iff State.reset).mp resetMeetsInv
  exact hb

/-- The block's part does not speak of the frame buffer. -/
theorem BlockInv.of_eq_but_fb {b c : Block} (h : BlockInv b) (hc : c = { b with fb := c.fb }) : BlockInv c := by
  rw [hc]
  exact ⟨h.faultRecord, h.noInfo, h.faultIdle, h.post, h.length, h.uninit, h.rest⟩

theorem finalFsm_of_idle {b : Block} (hp : b.pend = []) : b.finalFsm = b.fsm := by
  simp [Block.finalFsm, Block.idle, hp]

theorem finalFsm_of_busy {b : Block} (hp : b.pend ≠ []) : b.finalFsm = b.post := by
  simp [Block.finalFsm, Block.idle, hp]

theorem finalLines_of_idle {b : Block} (hp : b.pend = []) : b.finalLines = b.lines := by
  rw [Block.finalLines, hp, performAll_nil]

/-- An event step leaves where the trace leads as it was: FSM takes POST with the last event (R101, R102). -/
theorem finalFsm_eventStep {s : State} {e : Event} {rest : List Event} (hp : s.block.pend = e :: rest) :
    (eventStep e rest s).block.finalFsm = s.block.finalFsm := by
  rw [finalFsm_of_busy (b := s.block) (by simp [hp])]
  cases rest with
  | nil => rfl
  | cons e' rest => rfl

theorem finalLines_eventStep {s : State} {e : Event} {rest : List Event} (hp : s.block.pend = e :: rest) :
    (eventStep e rest s).block.finalLines = s.block.finalLines := by
  rw [Block.finalLines, Block.finalLines, hp]
  rfl

theorem ne_of_ready {f : Fsm} (h : f.ready = true) : f ≠ .uninit ∧ f ≠ .faulted := by
  constructor <;> rintro rfl <;> cases h

theorem ready_of_ne {f : Fsm} (hu : f ≠ .uninit) (hf : f ≠ .faulted) : f.ready = true := by
  cases f with
  | uninit => exact absurd rfl hu
  | faulted => exact absurd rfl hf
  | bankInit => rfl
  | rowActive r => rfl

/-- An event step keeps the block's part: the trace leads where it led before, and POST is neither UNINIT nor FAULTED. -/
theorem BlockInv.after_eventStep {s : State} {e : Event} {rest : List Event} (h : BlockInv s.block)
    (hp : s.block.pend = e :: rest) : BlockInv (eventStep e rest s).block := by
  have hbusy : s.block.pend ≠ [] := by simp [hp]
  obtain ⟨hpostU, hpostF⟩ := ne_of_ready (h.post hbusy)
  have hlen : (e :: rest).length ≤ 6184 := hp ▸ h.length
  have hfsm : s.block.fsm ≠ .faulted := fun hf => hbusy (h.faultIdle hf)
  have hfsm' : (eventStep e rest s).block.fsm ≠ .faulted := by
    rw [eventStep_fsm]
    split
    · exact hpostF
    · exact hfsm
  exact {
    faultRecord := iff_of_false hfsm' fun hc => hfsm (h.faultRecord.mpr hc)
    noInfo := h.noInfo
    faultIdle := fun hf => absurd hf hfsm'
    post := fun _ => h.post hbusy
    length := (Nat.le_succ rest.length).trans hlen
    uninit := fun hu => by
      rw [finalFsm_eventStep hp, finalFsm_of_busy hbusy] at hu
      exact absurd hu hpostU
    rest := by
      rw [finalFsm_eventStep hp, finalLines_eventStep hp]
      exact h.rest }

/-- CHECK never answers the cause that stands for no fault (R163). -/
theorem ne_noFault_of_check {d : Except Illegal Instr} {fsm : Fsm} {f : FaultCause} (h : check d fsm = some f) :
    f ≠ .noFault := by
  rintro rfl
  cases d with
  | error why => cases h
  | ok i =>
    simp only [check] at h
    split at h
    · cases h
    · split at h
      · cases h
      · cases i with
        | sendRow r => dsimp only at h; split at h <;> cases h
        | init => cases h
        | displayFrame => cases h

/-- Fault entry at an idle block keeps the block's part: the record and FAULTED come together, and no line is written (R162). -/
theorem BlockInv.after_raise {s : State} (h : BlockInv s.block) (hp : s.block.pend = []) {f : FaultCause} (hf : f ≠ .noFault)
    (w : Word) : BlockInv (raise f w s).block where
  faultRecord := iff_of_true rfl hf
  noInfo := fun hc => absurd hc hf
  faultIdle := fun _ => rfl
  post := fun hne => absurd rfl hne
  length := Nat.zero_le _
  uninit := fun hu => Fsm.noConfusion hu
  rest := by
    have hrest := h.rest.faulted
    rwa [finalLines_of_idle hp] at hrest

/-- The start of a trace keeps the block's part when the trace leads to lines that suit its final FSM value. -/
theorem BlockInv.after_startTrace {s : State} (h : BlockInv s.block) (hf : s.block.fsm ≠ .faulted) {es : List Event} {post : Fsm}
    (hne : es ≠ []) (hlen : es.length ≤ 6184) (hpost : post.ready = true)
    (hrest : RestInv (s.block.lines.performAll es) post) : BlockInv (startTrace es post s).block where
  faultRecord := h.faultRecord
  noInfo := h.noInfo
  faultIdle := fun hf' => absurd hf' hf
  post := fun _ => hpost
  length := hlen
  uninit := fun hu => by
    rw [finalFsm_of_busy hne] at hu
    exact absurd hu (ne_of_ready hpost).1
  rest := by
    rw [finalFsm_of_busy hne]
    exact hrest

/-! ### The trace an acceptance starts -/

/-- CHECK passes INIT at UNINIT only (R106). -/
theorem uninit_of_check {fsm : Fsm} (h : check (.ok .init) fsm = none) : fsm = .uninit := by
  by_contra hu
  simp [check, hu] at h

/-- CHECK passes no other command at UNINIT (R107). -/
theorem ne_uninit_of_check {i : Instr} {fsm : Fsm} (hi : i ≠ .init) (h : check (.ok i) fsm = none) : fsm ≠ .uninit := by
  rintro rfl
  simp [check, hi] at h

/-- Whatever command an acceptance starts the trace of, the trace is within the bound of R15 and leads to lines that suit its
final FSM value. -/
theorem BlockInv.trace_of_exec {i : Instr} {s t : State} (h : BlockInv s.block) (hp : s.block.pend = [])
    (hf : s.block.fsm ≠ .faulted) (hk : check (.ok i) s.block.fsm = none) (ht : exec i s = .next t) :
    t.block.pend.length ≤ 6184 ∧ t.block.post.ready = true ∧
      RestInv (s.block.lines.performAll t.block.pend) t.block.post := by
  have hcan : s.block.canAccept = true := (canAccept_iff _).mpr ⟨hp, hf⟩
  have hrest : RestInv s.block.lines s.block.fsm := by
    rw [← finalLines_of_idle hp, ← finalFsm_of_idle hp]
    exact h.rest
  cases i with
  | init =>
    cases ht.symm.trans (accept_of_ok (trace := fun _ => .ok (initTrace, .bankInit)) hcan hk rfl)
    have hreset : s.block.lines = Lines.reset := h.uninit ((finalFsm_of_idle hp).trans (uninit_of_check hk))
    simp only [startTrace_pend, startTrace_post, hreset]
    exact ⟨length_initTrace.trans_le (by decide), rfl, restInv_initTrace⟩
  | sendRow r =>
    have hready := ready_of_ne (ne_uninit_of_check (by simp) hk) hf
    cases ht.symm.trans (accept_of_ok hcan hk (sendRowTrace_eq Config.gamma r (row_of_check hk) s.block.fb))
    exact ⟨(length_rowEvents _ _ _).trans_le (by decide), rfl, hrest.after_rowEvents hready _ _ _⟩
  | displayFrame =>
    have hready := ready_of_ne (ne_uninit_of_check (by simp) hk) hf
    cases ht.symm.trans (accept_of_ok hcan hk (displayTrace_eq Config.gamma s.block.fb))
    exact ⟨(length_flatMap_rowEvents _ _ _).le, rfl, hrest.after_flatMap_rowEvents hready _ _ (List.finRange 8)⟩

/-! ### Every turn keeps the invariant -/

/-- The invariant speaks of the block and of CURSOR only, and a turn that leaves FB and CURSOR alone has just the block's part
to keep. -/
theorem machineInv_of_block {s t : State} (hs : MachineInv s) (hb : BlockInv t.block) (hfb : t.block.fb = s.block.fb)
    (hc : t.host.cursor = s.host.cursor) : MachineInv t :=
  (machineInv_iff t).mpr ⟨hfb ▸ hs.memory, hc ▸ hs.cursor, hb⟩

/-- The block's turn keeps the invariant, by the cases of R100 and R101. -/
theorem blockTurn_keeps_inv {s t : State} (hs : MachineInv s) (h : blockTurn s = .next t) : MachineInv t := by
  obtain ⟨-, -, hb⟩ := (machineInv_iff s).mp hs
  rcases blockTurn_cases h with ⟨e, rest, hp, rfl⟩ | ⟨-, -, rfl⟩ | ⟨w, hp, -, hcase⟩
  · exact machineInv_of_block hs (hb.after_eventStep hp) rfl rfl
  · exact hs
  · rcases hcase with ⟨-, rfl⟩ | ⟨-, why, -, rfl⟩ | ⟨-, i, f, -, hk, rfl⟩ | ⟨hf, i, es, post, -, hk, hne, ht, rfl⟩
    · exact hs
    · exact machineInv_of_block hs (hb.after_raise (s := takeWord s) hp (by decide) w) rfl rfl
    · exact machineInv_of_block hs (hb.after_raise (s := takeWord s) hp (ne_noFault_of_check hk) _) rfl rfl
    · obtain ⟨hlen, hpost, hrest⟩ := hb.trace_of_exec hp hf hk ht
      exact machineInv_of_block hs (hb.after_startTrace (s := takeWord s) hf hne hlen hpost hrest) rfl rfl

/-- A turn of the host keeps the canonical form of FB and CURSOR below 192: the 192nd byte exchanges the frame (R136, R137). -/
theorem hostTurn_keeps_memory_cursor {s t : State} {turn : Turn} (hs : MachineInv s) (hb : turn ≠ .block)
    (hr : turn.resets = false) (h : takeTurn turn s = .next t) : t.block.fb.wf = true ∧ t.host.cursor.val < 192 := by
  cases turn with
  | block => exact absurd rfl hb
  | present =>
    cases h
    unfold presentTurn
    split <;> exact ⟨hs.memory, hs.cursor⟩
  | receive x =>
    rcases receive_cases h with ⟨-, rfl⟩ | ⟨-, hc, rfl⟩ | ⟨-, -, rfl⟩
    · exact ⟨hs.memory, Nat.zero_lt_succ 191⟩
    · exact ⟨hs.memory, Nat.succ_lt_succ hc⟩
    · exact ⟨memWrite_wf _ 0 192 _ le_rfl, Nat.zero_lt_succ 191⟩
  | display =>
    cases h
    unfold displayTurn
    split <;> exact ⟨hs.memory, hs.cursor⟩
  | startup => cases hr
  | startTasks =>
    cases h
    exact ⟨hs.memory, Nat.zero_lt_succ 191⟩
  | reset => cases hr

/-- A turn that resets the block leaves the block of R20 and CURSOR as it was (R180, R183). -/
theorem resetTurn_keeps_inv {s t : State} {turn : Turn} (hs : MachineInv s) (hr : turn.resets = true)
    (h : takeTurn turn s = .next t) : MachineInv t := by
  have hreset : t.block = Block.reset ∧ t.host.cursor = s.host.cursor := by
    cases turn with
    | reset => cases h; exact ⟨rfl, rfl⟩
    | startup => cases h; exact ⟨rfl, rfl⟩
    | block => cases hr
    | present => cases hr
    | receive x => cases hr
    | display => cases hr
    | startTasks => cases hr
  obtain ⟨hblock, hcursor⟩ := hreset
  rw [machineInv_iff, hblock, hcursor]
  exact ⟨reset_memory_wf, hs.cursor, blockInv_reset⟩

/-- Every turn of every agent keeps the invariant. -/
theorem takeTurn_keeps_inv {s t : State} {turn : Turn} (hs : MachineInv s) (h : takeTurn turn s = .next t) :
    MachineInv t := by
  by_cases hb : turn = .block
  · subst hb
    exact blockTurn_keeps_inv hs h
  · cases hr : turn.resets with
    | true => exact resetTurn_keeps_inv hs hr h
    | false =>
      obtain ⟨-, -, hinv⟩ := (machineInv_iff s).mp hs
      obtain ⟨hmemory, hcursor⟩ := hostTurn_keeps_memory_cursor hs hb hr h
      exact (machineInv_iff t).mpr ⟨hmemory, hcursor, hinv.of_eq_but_fb (hostTurn_block hb hr h).1⟩

/-- Settles O50: a step is one turn, and neither its removal from the list nor the settling of the chip touches the block or the
host. -/
theorem stepKeepsInv : Obligations.StepKeepsInv := by
  intro s t hs h
  rw [step_eq_turn] at h
  obtain ⟨u, hu, rfl⟩ := mapNext_eq_next h
  have hpop : MachineInv (popTurn s) := (machineInv_iff _).mpr ((machineInv_iff s).mp hs)
  have hturn : MachineInv u := takeTurn_keeps_inv hpop hu
  rw [machineInv_iff] at hturn ⊢
  rwa [settle_block, settle_host]

end Sys2Proof.Proofs

/-! PROOFS. The row state machine (43_row_fsm.md): the block's turn, the order in which a trace is performed, and what the
acceptance of each command starts or refuses. -/

namespace Sys2Proof.Proofs

open Sys2Proof.Machine Sys2Proof.Laws

/-! ### The block's turn -/

/-- A step at the block's turn is what the block does at the state without that turn, after which the chip settles. -/
theorem step_of_blockTurn {s u : State} (ht : s.turn = .block) (h : blockTurn (popTurn s) = .next u) :
    step s = .next (settle u) := by
  rw [step_eq_turn, ht, takeTurn, h, mapNext_next]

/-- A busy block performs its head event (R101). -/
theorem blockTurn_of_busy {s : State} {e : Event} {rest : List Event} (hp : s.block.pend = e :: rest) :
    blockTurn s = .next (eventStep e rest s) := by
  simp [blockTurn, hp]

/-- An idle block runs the meaning of the command that waits on the port (R100). -/
theorem blockTurn_of_decoded {s : State} {w : Word} {i : Instr} (hp : s.block.pend = []) (hw : s.host.port = some w)
    (hd : decode w = .ok i) : blockTurn s = exec i s := by
  simp [blockTurn, acceptPort, hp, hw, hd]

/-- Settles O4: the turn of an idle block is the meaning of the decoded word. -/
theorem stepRunsDecoded : Obligations.StepRunsDecoded := by
  intro s w i hp hw hd ht
  rw [step_eq_turn, ht, takeTurn, blockTurn_of_decoded (s := popTurn s) hp hw hd, popTurn]

/-- A block cannot accept while events are pending or FSM is FAULTED (R100, R164). -/
theorem canAccept_eq_false {b : Block} (h : b.pend ≠ [] ∨ b.fsm = .faulted) : b.canAccept = false := by
  rw [← Bool.not_eq_true, canAccept_iff]
  tauto

/-- Settles O13: such a block cannot accept. -/
theorem heldCommandsChangeNothing : Obligations.HeldCommandsChangeNothing :=
  fun i _ h => exec_of_held i (canAccept_eq_false h)

/-- Every command is accepted by R100, with a trace of its own. -/
theorem exists_exec_eq_accept (i : Instr) (s : State) : ∃ trace, exec i s = accept i trace s := by
  cases i with
  | init => exact ⟨fun _ => .ok (initTrace, .bankInit), rfl⟩
  | sendRow r => exact ⟨sendRowTrace Config.gamma r, rfl⟩
  | displayFrame => exact ⟨displayTrace Config.gamma, rfl⟩

/-- A command that CHECK refuses enters the fault, whatever its trace would have been (R100, R162). -/
theorem exec_of_fault {i : Instr} {s : State} {f : FaultCause} (hp : s.block.pend = []) (hf : s.block.fsm ≠ .faulted)
    (hk : check (.ok i) s.block.fsm = some f) : exec i s = .next (raise f (encode i) (takeWord s)) := by
  obtain ⟨trace, hexec⟩ := exists_exec_eq_accept i s
  rw [hexec]
  exact accept_of_fault ((canAccept_iff _).mpr ⟨hp, hf⟩) hk

/-- An idle FAULTED block leaves everything as it is, whatever waits on the port (R164). -/
theorem blockTurn_of_faulted {s : State} (hp : s.block.pend = []) (hf : s.block.fsm = .faulted) :
    blockTurn s = .next s := by
  have hc : s.block.canAccept = false := canAccept_eq_false (.inr hf)
  cases hw : s.host.port with
  | none => simp [blockTurn, acceptPort, hp, hw]
  | some w =>
    cases hd : decode w with
    | ok i => rw [blockTurn_of_decoded hp hw hd, exec_of_held i hc]
    | error why => simp [blockTurn, acceptPort, hp, hw, hd, acceptIllegal_eq, hc]

/-- A waiting word that CHECK refuses enters the fault, with the word recorded (R162, R163). -/
theorem blockTurn_of_fault {s : State} {w : Word} {f : FaultCause} (hp : s.block.pend = []) (hf : s.block.fsm ≠ .faulted)
    (hw : s.host.port = some w) (hk : check (decode w) s.block.fsm = some f) :
    blockTurn s = .next (raise f w (takeWord s)) := by
  cases hd : decode w with
  | ok i =>
    rw [hd] at hk
    rw [blockTurn_of_decoded hp hw hd, exec_of_fault hp hf hk, encode_of_decode hd]
  | error why =>
    rw [hd] at hk
    cases hk
    exact blockTurn_of_illegal hd hp hf hw

/-- A waiting word that CHECK passes starts a trace that is not empty (R100). -/
theorem blockTurn_of_pass {s : State} {w : Word} (hp : s.block.pend = []) (hf : s.block.fsm ≠ .faulted)
    (hw : s.host.port = some w) (hk : check (decode w) s.block.fsm = none) :
    ∃ es post, es ≠ [] ∧ blockTurn s = .next (startTrace es post (takeWord s)) := by
  have hc : s.block.canAccept = true := (canAccept_iff _).mpr ⟨hp, hf⟩
  cases hd : decode w with
  | error why => rw [hd] at hk; cases hk
  | ok i =>
    rw [hd] at hk
    obtain ⟨t, ht⟩ := exec_next i s
    rcases exec_cases ht with ⟨hn, -⟩ | ⟨-, f, hk', -⟩ | ⟨-, -, es, post, hne, rfl⟩
    · rw [hc] at hn; cases hn
    · rw [hk] at hk'; cases hk'
    · exact ⟨es, post, hne, by rw [blockTurn_of_decoded hp hw hd, ht]⟩

/-- Settles O5, by what the block's turn does in each of the four situations. -/
theorem wordAcceptance : Obligations.WordAcceptance := by
  intro s w ht hw
  refine ⟨?busy, ?faulted, ?fault, ?pass⟩
  case busy =>
    intro hp
    obtain ⟨e, rest, hpe⟩ := List.exists_cons_of_ne_nil hp
    exact ⟨_, step_of_blockTurn ht (blockTurn_of_busy (s := popTurn s) hpe), settle_host _⟩
  case faulted =>
    intro hp hf
    exact ⟨_, step_of_blockTurn ht (blockTurn_of_faulted (s := popTurn s) hp hf), settle_block _, settle_host _⟩
  case fault =>
    intro f hp hf hk
    exact ⟨_, step_of_blockTurn ht (blockTurn_of_fault (s := popTurn s) hp hf hw hk), settle_block _, settle_host _⟩
  case pass =>
    intro hp hf hk
    obtain ⟨es, post, hne, hturn⟩ := blockTurn_of_pass (s := popTurn s) hp hf hw hk
    exact ⟨_, es, post, step_of_blockTurn ht hturn, hne, settle_block _, settle_host _⟩

/-! ### The event step, and whole runs of it -/

/-- Settles O9: the block's turn is the event step, and the other turns were settled in `hostTurn_block`. -/
theorem busyBlockStep : Obligations.BusyBlockStep := by
  intro s e rest hp
  refine ⟨fun ht => ?_, fun t hb hr h => ?_⟩
  · refine ⟨_, step_of_blockTurn ht (blockTurn_of_busy (s := popTurn s) hp), ?_, settle_host _, settle_turns _⟩
    rw [settle_block]
    cases e <;> cases rest <;> rfl
  · rw [step_eq_turn] at h
    obtain ⟨u, hu, rfl⟩ := mapNext_eq_next h
    rw [settle_block, settle_turns]
    exact hostTurn_block hb hr hu

/-- The state from which a busy block with only its own turns runs on after its head event. -/
theorem exists_runSteps_succ {s : State} {e : Event} {rest : List Event} (ht : s.turns = [])
    (hp : s.block.pend = e :: rest) :
    ∃ t, (∀ n, runSteps (n + 1) s = runSteps n t) ∧ t.block = (eventStep e rest s).block ∧ t.host = s.host ∧
      t.turns = [] :=
  ⟨settle (eventStep e rest s), fun n => by rw [runSteps, step_of_pend ht hp], settle_block _, settle_host _,
    (settle_turns _).trans ht⟩

/-- Settles O12, by induction on the number of steps: the first performs the head event, the others the events after it. -/
theorem eventsRunInOrder : Obligations.EventsRunInOrder := by
  intro n
  induction n with
  | zero =>
    intro s ht _ hp
    have hlen : ¬0 = s.block.pend.length := fun h => hp (List.eq_nil_of_length_eq_zero h.symm)
    exact ⟨s, rfl, by simp [hlen], rfl, ht⟩
  | succ n ih =>
    intro s ht hn hp
    obtain ⟨e, rest, hpe⟩ := List.exists_cons_of_ne_nil hp
    obtain ⟨t, hrun, hblock, hhost, hturns⟩ := exists_runSteps_succ ht hpe
    have hpend : t.block.pend = rest := by rw [hblock, eventStep_pend]
    rw [hrun n]
    rw [hpe] at hn ⊢
    cases rest with
    | nil =>
      obtain rfl : n = 0 := by simpa using hn
      exact ⟨t, rfl, hblock, hhost, hturns⟩
    | cons e' rest =>
      obtain ⟨u, hrun', hblock', hhost', hturns'⟩ := ih t hturns (by rw [hpend]; exact Nat.le_of_succ_le_succ hn)
        (by rw [hpend]; exact List.cons_ne_nil _ _)
      refine ⟨u, hrun', ?_, hhost'.trans hhost, hturns'⟩
      rw [hblock', hblock]
      simp [eventStep]

/-- What n steps leave of the block and the host after the acceptance that started the trace `es` (R100 to R102). -/
theorem exists_runSteps_startTrace {s : State} {es : List Event} (post : Fsm) {n : Nat} (ht : s.turns = [])
    (hne : es ≠ []) (hn : n ≤ es.length) :
    ∃ u, runSteps n (startTrace es post (takeWord s)) = .next u ∧
      u.block = { s.block with
        lines := s.block.lines.performAll (es.take n)
        fsm := if n = es.length then post else s.block.fsm
        pend := es.drop n
        post := post } ∧
      u.host = { s.host with port := none } := by
  obtain ⟨u, hrun, hblock, hhost, -⟩ := eventsRunInOrder n (startTrace es post (takeWord s)) ht hn hne
  exact ⟨u, hrun, hblock, hhost⟩

/-- What the whole trace leaves of an idle block that accepted it: the lines and FSM as the trace leads, the rest as before (R102). -/
theorem exists_runSteps_whole_trace {s : State} {es : List Event} (post : Fsm) {n : Nat} (ht : s.turns = [])
    (hp : s.block.pend = []) (hne : es ≠ []) (hn : es.length = n) :
    ∃ u, runSteps n (startTrace es post (takeWord s)) = .next u ∧
      u.block = { s.block with lines := s.block.lines.performAll es, fsm := post, post := post } ∧
      u.host = { s.host with port := none } := by
  obtain ⟨u, hrun, hblock, hhost⟩ := exists_runSteps_startTrace post ht hne hn.ge
  refine ⟨u, hrun, ?_, hhost⟩
  rw [hblock]
  simp [hp, ← hn]

/-! ### INIT: acceptance and refusal -/

/-- The trace of INIT after the release of RST (R105). -/
def initPowered : List Event := setLine .sb false ++ initStream ++ pulseLatch ++ setLine .sb true

theorem initTrace_eq_cons : initTrace = .delay 100 :: .set .rst true :: initPowered := by
  simp only [initTrace, initPowered, delay, setLine, Config.resetHoldMs, List.append_assoc, List.cons_append, List.nil_append]

/-- The acceptance of INIT at an idle block at UNINIT starts its trace (R105). -/
theorem exec_init_of_uninit {s : State} (hp : s.block.pend = []) (hu : s.block.fsm = .uninit) :
    exec .init s = .next (startTrace initTrace .bankInit (takeWord s)) := by
  have hf : s.block.fsm ≠ .faulted := by rw [hu]; decide
  exact accept_of_ok (trace := fun _ => .ok (initTrace, .bankInit)) ((canAccept_iff _).mpr ⟨hp, hf⟩) (by rw [hu]; rfl) rfl

/-- The trace of INIT as R105 lists it. -/
theorem initTrace_eq_listed :
    initTrace = [Event.delay 100, Event.set .rst true, Event.set .sb false] ++ sendBytes (List.replicate 18 0xFF#8)
      ++ [Event.set .lat true, Event.set .lat false, Event.set .lat true, Event.set .sb true] := by
  have hbytes : initStream = sendBytes (List.replicate 18 0xFF#8) := rfl
  simp only [initTrace_eq_cons, initPowered, hbytes, pulseLatch, setLine, List.append_assoc, List.cons_append,
    List.nil_append]

/-- Settles O14: the literal trace is `initTrace`. -/
theorem initAccepted : Obligations.InitAccepted := by
  intro s hp hu
  refine ⟨_, rfl, ?_, ?_⟩ <;> rw [← initTrace_eq_listed]
  · exact length_initTrace
  · exact exec_init_of_uninit hp hu

theorem check_init_of_ne_uninit {fsm : Fsm} (h : fsm ≠ .uninit) : check (.ok .init) fsm = some .reinit := by
  simp [check, h]

/-- What a fault at acceptance leaves of an idle block, in full (R162). -/
theorem raise_takeWord_of_idle {s : State} (hp : s.block.pend = []) (f : FaultCause) (w : Word) :
    raise f w (takeWord s) = { s with
      block := { s.block with fault := { cause := f, info := w }, fsm := .faulted }
      host := { s.host with port := none } } := by
  simp [raise, takeWord, hp]

/-- Settles O15: CHECK answers REINIT. -/
theorem secondInitFaults : Obligations.SecondInitFaults := by
  intro s hp hu hf
  rw [exec_of_fault hp hf (check_init_of_ne_uninit hu), raise_takeWord_of_idle hp]
  rfl

/-! ### SEND_ROW and DISPLAY_FRAME: acceptance and refusal -/

theorem check_sendRow_uninit (r : BitVec 8) : check (.ok (.sendRow r)) .uninit = some .notInitialized := rfl

theorem check_displayFrame_uninit : check (.ok .displayFrame) .uninit = some .notInitialized := rfl

theorem check_sendRow_of_out_of_range {fsm : Fsm} {r : BitVec 8} (hu : fsm ≠ .uninit) (hr : 7 < r.toNat) :
    check (.ok (.sendRow r)) fsm = some .rowRange := by
  simp [check, hu, hr]

/-- Settles O18: CHECK answers NOT_INITIALIZED at UNINIT, and ROW_RANGE after INIT. -/
theorem rowsNeedInitAndRange : Obligations.RowsNeedInitAndRange := by
  intro s hp
  refine ⟨fun r hu => ?_, fun hu => ?_, fun r hready hr => ?_⟩
  · have hf : s.block.fsm ≠ .faulted := by rw [hu]; decide
    rw [exec_of_fault hp hf (hu ▸ check_sendRow_uninit r), raise_takeWord_of_idle hp]
  · have hf : s.block.fsm ≠ .faulted := by rw [hu]; decide
    rw [exec_of_fault hp hf (hu ▸ check_displayFrame_uninit), raise_takeWord_of_idle hp]
    rfl
  · obtain ⟨hu, hf⟩ := ne_of_ready hready
    rw [exec_of_fault hp hf (check_sendRow_of_out_of_range hu hr), raise_takeWord_of_idle hp]

/-- A row's trace as R108 lists it: the latch pulse and the row line are its last four events. -/
theorem rowEvents_eq_listed (g : Byte → Byte) (r : Fin 8) (p : Vector Byte 24) :
    rowEvents g r p = sendBytes ((rowStream g p).take 9) ++ [Event.set (.row (prevRow r)) false]
      ++ sendBytes ((rowStream g p).drop 9)
      ++ [Event.set .lat true, Event.set .lat false, Event.set .lat true, Event.set (.row r) true] := by
  simp only [rowEvents, Config.deactAfterBytes, pulseLatch, List.append_assoc, List.cons_append, List.nil_append]

/-- Settles O17: a row below 8 is one of the eight rows. -/
theorem sendRowAccepted : Obligations.SendRowAccepted := by
  intro s r h hp hf
  have haccept := exec_sendRow_of_ready ⟨r.toNat, h⟩ hp hf
  rw [BitVec.ofNat_toNat, BitVec.setWidth_eq, rowEvents_eq_listed] at haccept
  exact haccept

/-- The trace of DISPLAY_FRAME: the traces of rows 0 to 7 of the frame (R115). -/
def frameEvents (fb : Memory) : List Event :=
  (List.finRange 8).flatMap fun r => rowEvents Config.gamma r (fb.rowBytes r)

theorem length_frameEvents (fb : Memory) : (frameEvents fb).length = 6184 :=
  length_flatMap_rowEvents Config.gamma fb.rowBytes (List.finRange 8)

theorem frameEvents_ne_nil (fb : Memory) : frameEvents fb ≠ [] := by
  rw [← List.length_pos_iff_ne_nil, length_frameEvents]
  decide

/-- The acceptance of DISPLAY_FRAME after INIT starts the traces of the frame read now (R115). -/
theorem exec_displayFrame_of_ready {s : State} (hp : s.block.pend = []) (hf : s.block.fsm.ready = true) :
    exec .displayFrame s = .next (startTrace (frameEvents s.block.fb) (.rowActive 7) (takeWord s)) := by
  obtain ⟨hu, hfault⟩ := ne_of_ready hf
  have htrace := displayTrace_eq Config.gamma s.block.fb
  simp only [rowOfFrame_frameBytes] at htrace
  exact accept_of_ok ((canAccept_iff _).mpr ⟨hp, hfault⟩) (by simp [check, hu]) htrace

/-- Settles O27: the frame's rows are the rows of the frame buffer. -/
theorem displayFrameAccepted : Obligations.DisplayFrameAccepted := by
  intro s hp hf
  exact ⟨frameEvents s.block.fb, by simp only [frameEvents, rowEvents_eq_listed]; rfl, length_frameEvents _,
    exec_displayFrame_of_ready hp hf⟩

end Sys2Proof.Proofs

/-! PROOFS. The traces of INIT and SEND_ROW (43_row_fsm.md): the lines each leaves whatever they were before, INIT run to its end,
and the event at each index of a row's trace. -/

namespace Sys2Proof.Proofs

open Sys2Proof.Machine Sys2Proof.Laws

/-! ### The lines after sent bytes, exactly -/

/-- Of several bytes the last one decides SDA, whatever the lines were (R81). -/
theorem performAll_sendBytes_concat (ls : Lines) (xs : List Byte) (x : Byte) :
    ls.performAll (sendBytes (xs ++ [x])) = { ls with sda := x.getLsbD 0, sck := false } := by
  rw [sendBytes_eq_sendBits, List.flatMap_append, List.flatMap_singleton, byteBits_eq_concat, ← List.append_assoc,
    performAll_sendBits_concat]

/-- INIT leaves SDA, LAT, SB and RST at 1 and SCK at 0, whatever the lines were, and writes no row line (R105). -/
theorem performAll_initTrace_eq (ls : Lines) :
    ls.performAll initTrace = { sda := true, sck := false, lat := true, sb := true, rst := true, rows := ls.rows } := by
  have hones : initStream = sendBytes (List.replicate 17 0xFF ++ [0xFF]) := rfl
  rw [initTrace_eq_cons, performAll_cons, performAll_cons, initPowered, performAll_append, performAll_append,
    performAll_append, hones, performAll_sendBytes_concat]
  rfl

/-- The first nine bytes of a row stream end with the red of column 5, the others with the red of column 0 (R82). -/
theorem take_rowStream_eq_concat (g : Byte → Byte) (p : Vector Byte 24) :
    (rowStream g p).take Config.deactAfterBytes = (rowStream g p).take 8 ++ [g p[15]] := rfl

theorem drop_rowStream_eq_concat (g : Byte → Byte) (p : Vector Byte 24) :
    (rowStream g p).drop Config.deactAfterBytes = ((rowStream g p).take 23).drop 9 ++ [g p[0]] := rfl

/-- The row lines after the trace of row r: the previous row off, then row r on (R108, R109). -/
def rowsAfter (rows : Vector Bool 8) (r : Fin 8) : Vector Bool 8 := (rows.set (prevRow r) false).set r true

/-- ROW_TRACE leaves bit 0 of its last byte on SDA, SCK at 0 and LAT at 1, whatever the lines were (R108). -/
theorem performAll_rowEvents_eq (g : Byte → Byte) (r : Fin 8) (p : Vector Byte 24) (ls : Lines) :
    ls.performAll (rowEvents g r p) =
      { ls with sda := (g p[0]).getLsbD 0, sck := false, lat := true, rows := rowsAfter ls.rows r } := by
  rw [rowEvents, performAll_append, performAll_append, performAll_append, performAll_append, take_rowStream_eq_concat,
    performAll_sendBytes_concat, drop_rowStream_eq_concat, performAll_sendBytes_concat]
  rfl

/-! ### INIT runs -/

theorem initTrace_ne_nil : initTrace ≠ [] := by
  rw [initTrace_eq_cons]
  exact List.cons_ne_nil _ _

theorem initPowered_ne_nil : initPowered ≠ [] :=
  List.append_ne_nil_of_right_ne_nil _ (List.cons_ne_nil _ _)

theorem length_initPowered : initPowered.length = 581 := by
  have hlen := length_initTrace
  rw [initTrace_eq_cons, List.length_cons, List.length_cons] at hlen
  exact Nat.add_right_cancel (m := 2) hlen

/-- After the release of RST, INIT leaves it alone (R105). -/
theorem spares_initPowered : Spares initPowered .rst := by
  simp only [initPowered, spares_append]
  exact ⟨⟨⟨by simp [Spares, setLine], spares_sendBytes (by decide) (by decide) _⟩, spares_pulseLatch (by decide)⟩,
    by simp [Spares, setLine]⟩

/-- The bits that INIT_STREAM sends (R84). -/
theorem initBits_eq : (List.replicate Config.initBytes (0xFF : Byte)).flatMap byteBits = List.replicate 144 true := by
  decide +kernel

/-- A write of SB commits and samples nothing (R23, R24). -/
theorem observeAll_setLine_sb (edge : LatchEdge) (ls : Lines) (v : Bool) (o : Observer) :
    o.observeAll edge ls (setLine .sb v) = o := rfl

/-- With SB low the 144 ones go to bank 0, whatever SR held before and whichever transition of LAT commits (R24, R84). -/
theorem observeAll_initPowered_out0 (edge : LatchEdge) (ls : Lines) (o : Observer) :
    (o.observeAll edge ls initPowered).out0 = Vector.replicate 144 true := by
  have hsb : (ls.performAll (setLine .sb false ++ initStream)).sb = false := by
    rw [performAll_append]
    exact (spares_sendBytes (l := .sb) (by decide) (by decide) _).get_performAll _
  have hsent : o.observeAll edge ls (setLine .sb false ++ initStream) =
      { o with sr := o.sr ++ List.replicate 144 true } := by
    rw [observeAll_append, observeAll_setLine_sb, initStream, observeAll_sendBytes, initBits_eq]
  obtain ⟨hout0, -⟩ := observeAll_pulseLatch_low edge (o := { o with sr := o.sr ++ List.replicate 144 true }) hsb
    (by simp)
  rw [initPowered, observeAll_append, observeAll_append, observeAll_setLine_sb, hsent]
  apply Vector.toList_inj.mp
  simpa using hout0

/-- Once INIT's trace is pending, its first two steps release RST, and from there the chip observes the rest (R27, R105). -/
theorem exists_runSteps_init_chip {s : State} (ht : s.turns = []) (hp : s.block.pend = initTrace) :
    ∃ u, runSteps 583 s = .next u ∧ u.chip.out0 = Vector.replicate 144 true := by
  rw [initTrace_eq_cons] at hp
  obtain ⟨s₁, hrun₁, hblock₁, -, ht₁⟩ := exists_runSteps_succ ht hp
  have hp₁ : s₁.block.pend = .set .rst true :: initPowered := by rw [hblock₁, eventStep_pend]
  obtain ⟨s₂, hrun₂, hblock₂, -, ht₂⟩ := exists_runSteps_succ ht₁ hp₁
  have hp₂ : s₂.block.pend = initPowered := by rw [hblock₂, eventStep_pend]
  have hrst₂ : s₂.block.lines.rst = true := by rw [hblock₂]; rfl
  refine ⟨afterEvents 581 s₂, ?_, ?_⟩
  · rw [hrun₁, hrun₂]
    exact runSteps_afterEvents 581 ht₂ hrst₂ (hp₂ ▸ spares_initPowered) (hp₂ ▸ initPowered_ne_nil)
      (hp₂ ▸ length_initPowered.ge)
  · simp only [afterEvents, hp₂, ← length_initPowered, List.take_length]
    exact observeAll_initPowered_out0 _ _ _

/-- Settles O16: the block's part is the trace performed, the chip's part the trace observed. -/
theorem initRuns : Obligations.InitRuns := by
  intro s ht hp hu
  obtain ⟨u, hrun, hblock, hhost⟩ := exists_runSteps_whole_trace .bankInit ht hp initTrace_ne_nil length_initTrace
  obtain ⟨v, hrun', hout0⟩ := exists_runSteps_init_chip (s := startTrace initTrace .bankInit (takeWord s)) ht rfl
  cases hrun.symm.trans hrun'
  exact ⟨_, u, exec_init_of_uninit hp hu, hrun, by rw [hblock, performAll_initTrace_eq], hhost, hout0⟩

/-! ### The event index map of SEND_ROW -/

/-- Event c of bit cell i, where the bits are sent one after another (R60, R80). -/
theorem getElem?_sendBits {bits : List Bool} {i c : Nat} {b : Bool} (hb : bits[i]? = some b) (hc : c < 4) :
    (bits.flatMap sendBit)[4 * i + c]? = (sendBit b)[c]? := by
  induction bits generalizing i with
  | nil => cases hb
  | cons b' bits ih =>
    rw [List.flatMap_cons]
    cases i with
    | zero =>
      cases hb
      rw [Nat.mul_zero, Nat.zero_add, List.getElem?_append_left hc]
    | succ i =>
      have hcell : (sendBit b').length = 4 := rfl
      rw [List.getElem?_append_right (by omega), hcell, show 4 * (i + 1) + c - 4 = 4 * i + c by omega]
      exact ih hb

/-- Event c of the bit cell of bit k of byte j, MSB first (R58, R81). -/
theorem getElem?_sendBytes (xs : List Byte) {j k c : Nat} (hj : j < xs.length) (hk : k < 8) (hc : c < 4) :
    (sendBytes xs)[4 * (8 * j + k) + c]? = (sendBit (xs[j].getLsbD (7 - k)))[c]? := by
  rw [sendBytes_eq_sendBits, getElem?_sendBits (getElem?_flatMap_byteBits xs hj hk) hc]

theorem sendBytes_append (xs ys : List Byte) : sendBytes (xs ++ ys) = sendBytes xs ++ sendBytes ys := List.flatMap_append

/-- How many events a row's trace sends before it turns the previous row off, and after (R108). -/
theorem length_sendBytes_take_rowStream (g : Byte → Byte) (p : Vector Byte 24) :
    (sendBytes ((rowStream g p).take Config.deactAfterBytes)).length = 288 := by
  simp [Config.deactAfterBytes]

theorem length_sendBytes_drop_rowStream (g : Byte → Byte) (p : Vector Byte 24) :
    (sendBytes ((rowStream g p).drop Config.deactAfterBytes)).length = 480 := by
  simp [Config.deactAfterBytes]

/-- ROW_TRACE as two runs of events that write no row line, each before an event that does (R108). -/
theorem rowEvents_eq_cons (g : Byte → Byte) (r : Fin 8) (p : Vector Byte 24) :
    rowEvents g r p = sendBytes ((rowStream g p).take Config.deactAfterBytes) ++
      Event.set (.row (prevRow r)) false ::
        ((sendBytes ((rowStream g p).drop Config.deactAfterBytes) ++ pulseLatch) ++ [Event.set (.row r) true]) := by
  simp only [rowEvents, List.append_assoc, List.cons_append, List.nil_append]

/-- The row stream as its two parts, the one before the previous row goes off and the one after. -/
theorem sendBytes_rowStream (g : Byte → Byte) (p : Vector Byte 24) :
    sendBytes (rowStream g p) = sendBytes ((rowStream g p).take Config.deactAfterBytes) ++
      sendBytes ((rowStream g p).drop Config.deactAfterBytes) := by
  rw [← sendBytes_append, List.take_append_drop]

/-- Events 0 to 287 are the first of the stream. -/
theorem getElem?_rowEvents_before (g : Byte → Byte) (r : Fin 8) (p : Vector Byte 24) {n : Nat} (hn : n < 288) :
    (rowEvents g r p)[n]? = (sendBytes (rowStream g p))[n]? := by
  have hlt : n < (sendBytes ((rowStream g p).take Config.deactAfterBytes)).length :=
    hn.trans_eq (length_sendBytes_take_rowStream g p).symm
  rw [rowEvents_eq_cons, sendBytes_rowStream, List.getElem?_append_left hlt, List.getElem?_append_left hlt]

/-- Event 288 turns the previous row off (R108, R109). -/
theorem getElem?_rowEvents_off (g : Byte → Byte) (r : Fin 8) (p : Vector Byte 24) :
    (rowEvents g r p)[288]? = some (.set (.row (prevRow r)) false) := by
  rw [rowEvents_eq_cons, List.getElem?_append_right (length_sendBytes_take_rowStream g p).le, length_sendBytes_take_rowStream]
  rfl

/-- Events 289 to 768 are the rest of the stream, each one later than in the stream. -/
theorem getElem?_rowEvents_after (g : Byte → Byte) (r : Fin 8) (p : Vector Byte 24) {n : Nat} (hlo : 288 ≤ n)
    (hhi : n < 768) : (rowEvents g r p)[n + 1]? = (sendBytes (rowStream g p))[n]? := by
  have htake := length_sendBytes_take_rowStream g p
  have hdrop := length_sendBytes_drop_rowStream g p
  obtain ⟨m, rfl⟩ := Nat.exists_eq_add_of_le hlo
  have hm : m < (sendBytes ((rowStream g p).drop Config.deactAfterBytes)).length := by omega
  rw [rowEvents_eq_cons, sendBytes_rowStream, List.getElem?_append_right (by omega),
    List.getElem?_append_right (by omega), htake, show 288 + m + 1 - 288 = m + 1 by omega, Nat.add_sub_cancel_left,
    List.getElem?_cons_succ, List.append_assoc, List.getElem?_append_left hm]

/-- Events 769 to 772 are the latch pulse and row r on (R108). -/
theorem getElem?_rowEvents_end (g : Byte → Byte) (r : Fin 8) (p : Vector Byte 24) (i : Nat) :
    (rowEvents g r p)[769 + i]? = (pulseLatch ++ [Event.set (.row r) true])[i]? := by
  have hfront : (sendBytes ((rowStream g p).take Config.deactAfterBytes) ++ [Event.set (.row (prevRow r)) false] ++
      sendBytes ((rowStream g p).drop Config.deactAfterBytes)).length = 769 := by
    rw [List.length_append, List.length_append, length_sendBytes_take_rowStream, length_sendBytes_drop_rowStream]
    rfl
  rw [rowEvents, List.append_assoc, List.getElem?_append_right (by omega), hfront, Nat.add_sub_cancel_left]

/-- Where the bit cell of bit k of stream byte j starts in a row's trace (R108). -/
def cellStart (j k : Nat) : Nat := 4 * (8 * j + k) + (if j < 9 then 0 else 1)

/-- Event c of the bit cell of bit k of stream byte j in a row's trace (R108). -/
theorem getElem?_rowEvents_cell (g : Byte → Byte) (r : Fin 8) (p : Vector Byte 24) {j k c : Nat}
    (hj : j < 24) (hk : k < 8) (hc : c < 4) :
    (rowEvents g r p)[cellStart j k + c]? = (sendBit ((g p[23 - j]).getLsbD (7 - k)))[c]? := by
  have hcell := getElem?_sendBytes (rowStream g p) (j := j) (by rwa [length_rowStream]) hk hc
  have hbyte : (rowStream g p)[j]'(by rwa [length_rowStream]) = g p[23 - j] := by simp [rowStream_eq]
  rw [hbyte] at hcell
  rw [← hcell, cellStart]
  split
  · exact getElem?_rowEvents_before g r p (by omega)
  · rw [Nat.add_right_comm]
    exact getElem?_rowEvents_after g r p (by omega) (by omega)

/-- Settles O19: the trace that the acceptance starts, read at each index. -/
theorem rowTraceMap : Obligations.RowTraceMap := by
  intro s t r hp hf h
  cases h.symm.trans (exec_sendRow_of_ready r hp hf)
  rw [startTrace_pend]
  refine ⟨length_rowEvents _ _ _, getElem?_rowEvents_off _ r _, getElem?_rowEvents_end _ r _ 0,
    getElem?_rowEvents_end _ r _ 1, getElem?_rowEvents_end _ r _ 2, getElem?_rowEvents_end _ r _ 3, fun j k => ?_⟩
  have hbyte : (s.block.fb.rowBytes r)[23 - j.val] = s.block.fb.read ⟨24 * r.val + 23 - j.val, by omega⟩ := by
    rw [getElem_rowBytes]
    congr 2
    omega
  have hcell := fun (c : Nat) (hc : c < 4) =>
    getElem?_rowEvents_cell Config.gamma r (s.block.fb.rowBytes r) j.isLt k.isLt hc
  simp only [hbyte] at hcell
  exact ⟨hcell 0 (by decide), hcell 1 (by decide), hcell 2 (by decide), hcell 3 (by decide)⟩

end Sys2Proof.Proofs

/-! PROOFS. SEND_ROW and DISPLAY_FRAME run (43_row_fsm.md): the row lines after each number of events, in the cyclic call pattern
and out of it, and what a whole frame leaves. -/

namespace Sys2Proof.Proofs

open Sys2Proof.Machine Sys2Proof.Laws

/-! ### SEND_ROW runs -/

theorem rowEvents_ne_nil (g : Byte → Byte) (r : Fin 8) (p : Vector Byte 24) : rowEvents g r p ≠ [] := by
  simp [rowEvents]

/-- Settles O21: the last byte of the row stream is the row's byte 0, which stands at address 24 r. -/
theorem sendRowRuns : Obligations.SendRowRuns := by
  intro s r ht hp hf
  obtain ⟨u, hrun, hblock, hhost⟩ := exists_runSteps_whole_trace (.rowActive r) ht hp
    (rowEvents_ne_nil Config.gamma r (s.block.fb.rowBytes r)) (length_rowEvents _ _ _)
  refine ⟨_, u, exec_sendRow_of_ready r hp hf, hrun, ?_, hhost⟩
  rw [hblock, performAll_rowEvents_eq, getElem_rowBytes]
  rfl

/-- Settles O24: of the row lines the trace writes C_r and the one before it only, and C_p is neither. -/
theorem outOfOrderLightsTwoRows : Obligations.OutOfOrderLightsTwoRows := by
  intro s p r ht hp hf hon hrp hnext
  obtain ⟨t, u, hexec, hrun, hblock, -⟩ := sendRowRuns s r ht hp (by rw [hf]; rfl)
  have hrp' : r.val ≠ p.val := fun h => hrp (Fin.ext h)
  have hprev : (r.val + 7) % 8 ≠ p.val := by omega
  have hon' : s.block.lines.rows[p.val] = true := hon
  refine ⟨t, u, hexec, hrun, ?_, ?_, ?_, ?_⟩ <;> rw [hblock]
  · simp [hrp', hprev, hon']
  · simp

/-! ### The row lines while a row is sent -/

theorem Spares.take {es : List Event} {l : Line} (h : Spares es l) (n : Nat) : Spares (es.take n) l :=
  fun v hv => h v (List.mem_of_mem_take hv)

/-- Events that write no row line leave the row lines as they were, after any number of them (R11). -/
theorem rows_performAll_take_of_spares {es : List Event} (h : ∀ k, Spares es (.row k)) (n : Nat) (ls : Lines) :
    (ls.performAll (es.take n)).rows = ls.rows := by
  ext k hk
  exact ((h ⟨k, hk⟩).take n).get_performAll ls

theorem rows_perform_row (ls : Lines) (r : Fin 8) (v : Bool) :
    (ls.perform (.set (.row r) v)).rows = ls.rows.set r v := rfl

/-- The row lines after n events of the trace of row r (R108): the previous row goes off with event 288, row r on with event
772. -/
def rowsDuring (rows : Vector Bool 8) (r : Fin 8) (n : Nat) : Vector Bool 8 :=
  if n ≤ 288 then rows else if n ≤ 772 then rows.set (prevRow r) false else rowsAfter rows r

theorem rows_performAll_take_rowEvents (g : Byte → Byte) (r : Fin 8) (p : Vector Byte 24) (ls : Lines) (n : Nat) :
    (ls.performAll ((rowEvents g r p).take n)).rows = rowsDuring ls.rows r n := by
  have hhead : ∀ k, Spares (sendBytes ((rowStream g p).take Config.deactAfterBytes)) (.row k) :=
    fun k => spares_sendBytes (by simp) (by simp) _
  have htail : ∀ k, Spares (sendBytes ((rowStream g p).drop Config.deactAfterBytes) ++ pulseLatch) (.row k) :=
    fun k => spares_append.mpr ⟨spares_sendBytes (by simp) (by simp) _, spares_pulseLatch (by simp)⟩
  have hlen : (sendBytes ((rowStream g p).drop Config.deactAfterBytes) ++ pulseLatch).length = 483 := by
    rw [List.length_append, length_sendBytes_drop_rowStream]
    rfl
  rw [rowEvents_eq_cons, List.take_append, performAll_append, length_sendBytes_take_rowStream, rowsDuring]
  by_cases hoff : n ≤ 288
  · rw [Nat.sub_eq_zero_of_le hoff, List.take_zero, performAll_nil, rows_performAll_take_of_spares hhead, if_pos hoff]
  · obtain ⟨m, rfl⟩ := Nat.exists_eq_add_of_lt (not_le.mp hoff)
    rw [if_neg hoff, Nat.add_assoc, Nat.add_sub_cancel_left, List.take_succ_cons, performAll_cons, List.take_append,
      performAll_append, hlen]
    by_cases hon : m ≤ 483
    · rw [Nat.sub_eq_zero_of_le hon, List.take_zero, performAll_nil, rows_performAll_take_of_spares htail,
        rows_perform_row, rows_performAll_take_of_spares hhead, if_pos (by omega)]
    · rw [List.take_of_length_le (l := [_]) (by rw [List.length_singleton]; omega), performAll_cons, performAll_nil,
        rows_perform_row, rows_performAll_take_of_spares htail, rows_perform_row,
        rows_performAll_take_of_spares hhead, if_neg (by omega), rowsAfter]

/-- The row lines after each number of events of an accepted SEND_ROW (R108). -/
theorem exists_exec_sendRow_rows {s : State} (r : Fin 8) (ht : s.turns = []) (hp : s.block.pend = [])
    (hf : s.block.fsm.ready = true) :
    ∃ t, exec (.sendRow (BitVec.ofNat 8 r.val)) s = .next t ∧
      ∀ n, n ≤ 773 → ∃ u, runSteps n t = .next u ∧ u.block.lines.rows = rowsDuring s.block.lines.rows r n := by
  refine ⟨_, exec_sendRow_of_ready r hp hf, fun n hn => ?_⟩
  obtain ⟨u, hrun, hblock, -⟩ := exists_runSteps_startTrace (.rowActive r) ht
    (rowEvents_ne_nil Config.gamma r (s.block.fb.rowBytes r)) (hn.trans_eq (length_rowEvents _ _ _).symm)
  exact ⟨u, hrun, by rw [hblock]; exact rows_performAll_take_rowEvents _ _ _ _ _⟩

/-! ### At most one row -/

/-- A row line that is written to the level it has leaves the row lines as they were. -/
theorem rows_set_eq_self {rows : Vector Bool 8} {r : Fin 8} {v : Bool} (h : rows[r] = v) : rows.set r v = rows := by
  subst h
  exact Vector.set_getElem_self _

theorem onlyRow_set_false (r : Fin 8) : (onlyRow r).set r false = noRow := by
  ext k hk
  simp [onlyRow, noRow, Vector.getElem_set, Fin.ext_iff, eq_comm]

theorem noRow_set_false (r : Fin 8) : noRow.set r false = noRow :=
  rows_set_eq_self (by simp [noRow])

theorem noRow_set_true (r : Fin 8) : noRow.set r true = onlyRow r := by
  ext k hk
  simp [onlyRow, noRow, Vector.getElem_set, Fin.ext_iff, eq_comm]

/-- The cyclic call pattern (R110): row r is sent with no row on, or with only the row before it on. -/
def CyclicRows (rows : Vector Bool 8) (r : Fin 8) : Prop := rows = noRow ∨ rows = onlyRow (prevRow r)

theorem CyclicRows.set_prevRow {rows : Vector Bool 8} {r : Fin 8} (h : CyclicRows rows r) :
    rows.set (prevRow r) false = noRow := by
  rcases h with rfl | rfl
  · exact noRow_set_false _
  · exact onlyRow_set_false _

theorem CyclicRows.rowsAfter_eq {rows : Vector Bool 8} {r : Fin 8} (h : CyclicRows rows r) :
    rowsAfter rows r = onlyRow r := by
  rw [rowsAfter, h.set_prevRow, noRow_set_true]

/-- In the cyclic pattern the windows of R110 are as before, no row, and only row r. -/
theorem CyclicRows.rowsDuring_eq {rows : Vector Bool 8} {r : Fin 8} (h : CyclicRows rows r) (n : Nat) :
    rowsDuring rows r n = if n ≤ 288 then rows else if n ≤ 772 then noRow else onlyRow r := by
  rw [rowsDuring, h.set_prevRow, h.rowsAfter_eq]

theorem prevRow_eq_of_next {p r : Fin 8} (h : r.val = (p.val + 1) % 8) : prevRow r = p := by
  apply Fin.ext
  simp only [prevRow]
  omega

/-- Settles O23: both starting states are in the cyclic pattern. -/
theorem singleActiveRow : Obligations.SingleActiveRow := by
  intro s r ht hp hstart
  obtain ⟨hf, hcyclic⟩ : s.block.fsm.ready = true ∧ CyclicRows s.block.lines.rows r := by
    rcases hstart with ⟨hf, hrows⟩ | ⟨p, hf, hrows, hnext⟩
    · exact ⟨by rw [hf]; rfl, .inl hrows⟩
    · exact ⟨by rw [hf]; rfl, .inr (by rw [hrows, prevRow_eq_of_next hnext])⟩
  obtain ⟨t, hexec, hrows⟩ := exists_exec_sendRow_rows r ht hp hf
  simp only [hcyclic.rowsDuring_eq] at hrows
  exact ⟨t, hexec, hrows⟩

theorem prevRow_ne (r : Fin 8) : prevRow r ≠ r := by
  simp only [prevRow, ne_eq, Fin.ext_iff]
  omega

theorem getElem_onlyRow (r k : Fin 8) : (onlyRow r)[k] = decide (k = r) := by
  simp [onlyRow]

/-- The row before the only one that is on is off already (R112). -/
theorem onlyRow_set_prevRow_false (r : Fin 8) : (onlyRow r).set (prevRow r) false = onlyRow r :=
  rows_set_eq_self (by simp only [getElem_onlyRow, prevRow_ne, decide_false])

theorem onlyRow_set_true (r : Fin 8) : (onlyRow r).set r true = onlyRow r :=
  rows_set_eq_self (by simp only [getElem_onlyRow, decide_true])

/-- The trace of the only row that is on never changes a row line (R112). -/
theorem rowsDuring_onlyRow (r : Fin 8) (n : Nat) : rowsDuring (onlyRow r) r n = onlyRow r := by
  simp only [rowsDuring, rowsAfter, onlyRow_set_prevRow_false, onlyRow_set_true, ite_self]

/-- Settles O25: neither write of a row line changes its level. -/
theorem sameRowStaysLit : Obligations.SameRowStaysLit := by
  intro s p ht hp hf hrows
  obtain ⟨t, hexec, hrun⟩ := exists_exec_sendRow_rows p ht hp (by rw [hf]; rfl)
  simp only [hrows, rowsDuring_onlyRow] at hrun
  exact ⟨t, hexec, hrun⟩

theorem atMostOneRow_noRow : atMostOneRow noRow := by
  intro i j hi
  simp [noRow] at hi

theorem atMostOneRow_onlyRow (r : Fin 8) : atMostOneRow (onlyRow r) := by
  intro i j hi hj
  rw [getElem_onlyRow, decide_eq_true_eq] at hi hj
  exact hi.trans hj.symm

/-- At most one row line is on at the start and after each event of a list. -/
def OneRowDuring (ls : Lines) (es : List Event) : Prop := ∀ n, atMostOneRow (ls.performAll (es.take n)).rows

theorem OneRowDuring.append {ls : Lines} {es fs : List Event} (hes : OneRowDuring ls es)
    (hfs : OneRowDuring (ls.performAll es) fs) : OneRowDuring ls (es ++ fs) := by
  intro n
  rw [List.take_append, performAll_append]
  by_cases hn : n ≤ es.length
  · rw [Nat.sub_eq_zero_of_le hn]
    exact hes n
  · rw [List.take_of_length_le (not_le.mp hn).le]
    exact hfs _

/-- In the cyclic pattern a row is sent with at most one row on throughout (R110). -/
theorem CyclicRows.oneRowDuring {ls : Lines} {r : Fin 8} (h : CyclicRows ls.rows r) (g : Byte → Byte)
    (p : Vector Byte 24) : OneRowDuring ls (rowEvents g r p) := by
  intro n
  rw [rows_performAll_take_rowEvents, h.rowsDuring_eq]
  split
  · rcases h with h | h <;> rw [h]
    · exact atMostOneRow_noRow
    · exact atMostOneRow_onlyRow _
  · split
    · exact atMostOneRow_noRow
    · exact atMostOneRow_onlyRow r

/-- So are several rows, each the next after the one before it (R110, R115). -/
theorem CyclicRows.oneRowDuring_flatMap {ls : Lines} {r : Fin 8} {rs : List (Fin 8)} (h : CyclicRows ls.rows r)
    (hchain : (r :: rs).IsChain fun a b => prevRow b = a) (g : Byte → Byte) (p : Fin 8 → Vector Byte 24) :
    OneRowDuring ls ((r :: rs).flatMap fun k => rowEvents g k (p k)) := by
  induction rs generalizing ls r with
  | nil =>
    rw [List.flatMap_singleton]
    exact h.oneRowDuring g (p r)
  | cons r' rs ih =>
    obtain ⟨hprev, hrest⟩ := List.isChain_cons_cons.mp hchain
    rw [List.flatMap_cons]
    refine (h.oneRowDuring g (p r)).append (ih (.inr ?_) hrest)
    rw [performAll_rowEvents_eq, h.rowsAfter_eq, hprev]

/-! ### DISPLAY_FRAME runs -/

/-- Rows 0 to 7, in the order DISPLAY_FRAME sends them (R115). -/
theorem finRange_eight : List.finRange 8 = [0, 1, 2, 3, 4, 5, 6] ++ [7] := by decide

/-- The row lines after each number of events of an accepted DISPLAY_FRAME are those its trace leaves (R115). -/
theorem exists_exec_displayFrame_rows {s : State} (ht : s.turns = []) (hp : s.block.pend = [])
    (hf : s.block.fsm.ready = true) :
    ∃ t, exec .displayFrame s = .next t ∧
      ∀ n, n ≤ 6184 → ∃ u, runSteps n t = .next u ∧
        u.block.lines.rows = (s.block.lines.performAll ((frameEvents s.block.fb).take n)).rows := by
  refine ⟨_, exec_displayFrame_of_ready hp hf, fun n hn => ?_⟩
  obtain ⟨u, hrun, hblock, -⟩ := exists_runSteps_startTrace (.rowActive 7) ht (frameEvents_ne_nil s.block.fb)
    (hn.trans_eq (length_frameEvents _).symm)
  exact ⟨u, hrun, by rw [hblock]⟩

/-- Settles O29: row 0 is sent in the cyclic pattern, and rows 1 to 7 follow it in order. -/
theorem displayFrameOneRow : Obligations.DisplayFrameOneRow := by
  intro s ht hp hstart
  obtain ⟨hf, hcyclic⟩ : s.block.fsm.ready = true ∧ CyclicRows s.block.lines.rows 0 := by
    rcases hstart with ⟨hf, hrows⟩ | ⟨hf, hrows⟩
    · exact ⟨by rw [hf]; rfl, .inl hrows⟩
    · exact ⟨by rw [hf]; rfl, .inr hrows⟩
  have hone : OneRowDuring s.block.lines (frameEvents s.block.fb) :=
    hcyclic.oneRowDuring_flatMap (rs := [1, 2, 3, 4, 5, 6, 7]) (by decide) Config.gamma s.block.fb.rowBytes
  obtain ⟨t, hexec, hrows⟩ := exists_exec_displayFrame_rows ht hp hf
  refine ⟨t, hexec, fun n hn => ?_⟩
  obtain ⟨u, hrun, hu⟩ := hrows n hn
  exact ⟨u, hrun, hu ▸ hone n⟩

/-- From the last event of row 0's trace until row 1's trace turns C_0 off, the row lines are as row 0's trace left them. -/
theorem rows_performAll_take_frameEvents {fb : Memory} {n : Nat} (hlo : 773 ≤ n) (hhi : n ≤ 1061) (ls : Lines) :
    (ls.performAll ((frameEvents fb).take n)).rows = rowsAfter ls.rows 0 := by
  obtain ⟨m, rfl⟩ := Nat.exists_eq_add_of_le hlo
  have hm : m ≤ 288 := by omega
  have hsplit : frameEvents fb = rowEvents Config.gamma 0 (fb.rowBytes 0) ++ (rowEvents Config.gamma 1 (fb.rowBytes 1) ++
      [2, 3, 4, 5, 6, 7].flatMap fun r => rowEvents Config.gamma r (fb.rowBytes r)) := by
    rw [frameEvents, finRange_eight]
    rfl
  have hfirst : ((rowEvents Config.gamma 0 (fb.rowBytes 0)).take (773 + m)) = rowEvents Config.gamma 0 (fb.rowBytes 0) :=
    List.take_of_length_le ((length_rowEvents _ _ _).trans_le (Nat.le_add_right _ _))
  have hsecond : m ≤ (rowEvents Config.gamma 1 (fb.rowBytes 1)).length := by
    rw [length_rowEvents]
    omega
  rw [hsplit, List.take_append, hfirst, length_rowEvents, Nat.add_sub_cancel_left, List.take_append_of_le_length hsecond,
    performAll_append, rows_performAll_take_rowEvents, performAll_rowEvents_eq, rowsDuring, if_pos hm]

/-- Settles O30: row 0's trace writes C_7 and C_0 only, and C_p is neither. -/
theorem displayFrameOutOfCycle : Obligations.DisplayFrameOutOfCycle := by
  intro s p hp1 hp6 ht hp hf hon
  obtain ⟨t, hexec, hrows⟩ := exists_exec_displayFrame_rows ht hp (by rw [hf]; rfl)
  refine ⟨t, hexec, fun n hlo hhi => ?_⟩
  obtain ⟨u, hrun, hu⟩ := hrows n (hhi.trans (by decide))
  have h0 : 0 ≠ p.val := by omega
  have h7 : 7 ≠ p.val := by omega
  have hon' : s.block.lines.rows[p.val] = true := hon
  refine ⟨u, hrun, ?_, ?_⟩ <;> rw [hu, rows_performAll_take_frameEvents hlo hhi]
  · simp [rowsAfter]
  · simp [rowsAfter, prevRow, h0, h7, hon']

/-- The traces of several rows leave the lines as the last of them does, and the row lines as all of them do in turn (R115). -/
theorem performAll_flatMap_rowEvents (g : Byte → Byte) (p : Fin 8 → Vector Byte 24) (rs : List (Fin 8)) (r : Fin 8)
    (ls : Lines) :
    ls.performAll ((rs ++ [r]).flatMap fun k => rowEvents g k (p k)) =
      { ls with sda := (g (p r)[0]).getLsbD 0, sck := false, lat := true, rows := (rs ++ [r]).foldl rowsAfter ls.rows } := by
  induction rs generalizing ls with
  | nil => rw [List.nil_append, List.flatMap_singleton, performAll_rowEvents_eq]; rfl
  | cons r' rs ih => rw [List.cons_append, List.flatMap_cons, performAll_append, ih, performAll_rowEvents_eq]; rfl

/-- After rows 0 to 7 only C_7 is on, whatever was on before (R115). -/
theorem foldl_rowsAfter (rows : Vector Bool 8) : (List.finRange 8).foldl rowsAfter rows = onlyRow 7 := by
  rw [finRange_eight]
  ext k hk
  interval_cases k <;> simp [rowsAfter, prevRow, onlyRow]

theorem performAll_frameEvents (fb : Memory) (ls : Lines) :
    ls.performAll (frameEvents fb) =
      { ls with sda := (Config.gamma (fb.read 168)).getLsbD 0, sck := false, lat := true, rows := onlyRow 7 } := by
  have hlines := performAll_flatMap_rowEvents Config.gamma fb.rowBytes [0, 1, 2, 3, 4, 5, 6] 7 ls
  rw [← finRange_eight, foldl_rowsAfter, getElem_rowBytes] at hlines
  exact hlines

/-! ### What the last row of a frame shows -/

/-- DISPLAY_FRAME writes neither SB nor RST (R115). -/
theorem spares_frameEvents {l : Line} (hl : l = .sb ∨ l = .rst) (fb : Memory) : Spares (frameEvents fb) l := by
  intro v hv
  obtain ⟨r, -, hr⟩ := List.mem_flatMap.mp hv
  exact spares_rowEvents hl Config.gamma r (fb.rowBytes r) v hr

/-- The traces of several rows with SB at 1 leave the stream of the last in bank 1, and bank 0 untouched (R24, R85, R115). -/
theorem observeAll_flatMap_rowEvents (edge : LatchEdge) (g : Byte → Byte) (p : Fin 8 → Vector Byte 24) (rs : List (Fin 8))
    (r : Fin 8) {ls : Lines} (o : Observer) (hs : ls.sb = true) :
    (o.observeAll edge ls ((rs ++ [r]).flatMap fun k => rowEvents g k (p k))).out1.toList =
      (rowStream g (p r)).flatMap byteBits ∧
    (o.observeAll edge ls ((rs ++ [r]).flatMap fun k => rowEvents g k (p k))).out0 = o.out0 := by
  induction rs generalizing ls o with
  | nil =>
    rw [List.nil_append, List.flatMap_singleton]
    exact observeAll_rowEvents edge o g r (p r) hs
  | cons r' rs ih =>
    obtain ⟨-, hout0⟩ := observeAll_rowEvents edge o g r' (p r') hs
    rw [List.cons_append, List.flatMap_cons, observeAll_append, ← hout0]
    exact ih _ (((spares_rowEvents (.inl rfl) g r' (p r')).get_performAll ls).trans hs)

/-- What the whole trace of a frame leaves of the chip, with RST and SB at 1: row 7's stream in bank 1, bank 0 untouched. -/
theorem exists_runSteps_frameEvents_chip {s : State} (ht : s.turns = []) (hrst : s.block.lines.rst = true)
    (hsb : s.block.lines.sb = true) :
    ∃ u, runSteps 6184 (startTrace (frameEvents s.block.fb) (.rowActive 7) (takeWord s)) = .next u ∧
      u.chip.out1.toList = (rowStream Config.gamma (s.block.fb.rowBytes 7)).flatMap byteBits ∧
      u.chip.out0 = s.chip.out0 := by
  have hrun := runSteps_startTrace (s := takeWord s) (.rowActive 7) ht hrst (spares_frameEvents (.inr rfl) s.block.fb)
    (frameEvents_ne_nil s.block.fb)
  rw [length_frameEvents] at hrun
  have hchip := observeAll_flatMap_rowEvents Config.latchEdge Config.gamma s.block.fb.rowBytes [0, 1, 2, 3, 4, 5, 6] 7
    s.chip hsb
  rw [← finRange_eight] at hchip
  exact ⟨_, hrun, hchip⟩

/-- Settles O28: the block's part is the trace performed, the chip's part the trace observed. -/
theorem displayFrameRuns : Obligations.DisplayFrameRuns := by
  intro s ht hp hf
  obtain ⟨u, hrun, hblock, hhost⟩ :=
    exists_runSteps_whole_trace (.rowActive 7) ht hp (frameEvents_ne_nil s.block.fb) (length_frameEvents s.block.fb)
  rw [performAll_frameEvents] at hblock
  refine ⟨_, u, exec_displayFrame_of_ready hp hf, hrun, hblock, hhost, fun hrst hsb => ?_⟩
  obtain ⟨v, hrun', hout1, hout0⟩ := exists_runSteps_frameEvents_chip ht hrst hsb
  cases hrun.symm.trans hrun'
  refine ⟨fun c ch => (shown_of_on ?_ c ch).trans ?_, hout0⟩
  · rw [hblock]
    rfl
  · exact congrArg some ((bankByte_of_toList hout1 _ _).trans (rowStream_driveByte Config.gamma s.block.fb 7 c ch))

end Sys2Proof.Proofs

/-! PROOFS. The host's tasks (45_host_environment.md): that every turn has a next state, what the display task's turns do, and that
neither a run of the task nor a host that keeps its duties lights two rows. -/

namespace Sys2Proof.Proofs

open Sys2Proof.Machine Sys2Proof.Laws

/-! ### Every turn has a next state -/

/-- A turn stops the model only where a byte finds CURSOR past the frame (R137). -/
theorem takeTurn_next (turn : Turn) {s : State} (hc : s.host.cursor.val < 192) : ∃ t, takeTurn turn s = .next t := by
  cases turn with
  | block => exact blockTurn_next s
  | receive x => exact receive_next x hc
  | present => exact ⟨_, rfl⟩
  | display => exact ⟨_, rfl⟩
  | startup => exact ⟨_, rfl⟩
  | startTasks => exact ⟨_, rfl⟩
  | reset => exact ⟨_, rfl⟩

/-- A step is the turn it takes, after which the chip settles. -/
theorem step_of_takeTurn {s u : State} (h : takeTurn s.turn (popTurn s) = .next u) : step s = .next (settle u) := by
  rw [step_eq_turn, h, mapNext_next]

/-- Settles O51: the invariant keeps CURSOR below 192. -/
theorem invStepNeverStops : Obligations.InvStepNeverStops := by
  intro s hs
  obtain ⟨u, hu⟩ := takeTurn_next s.turn (s := popTurn s) hs.cursor
  exact ⟨_, step_of_takeTurn hu⟩

/-! ### The turns that put words on the port -/

/-- While a word waits on the port the display task is held (R100, R138). -/
theorem displayTurn_of_port {s : State} {w : Word} (hw : s.host.port = some w) : displayTurn s = s := by
  simp [displayTurn, hw]

/-- An activation issues SEND_ROW IDX (R138). -/
theorem displayTurn_of_dormant {s : State} (hw : s.host.port = none) (hp : s.host.phase = .dormant) :
    displayTurn s = { s with
      host := { s.host with port := some (encode (.sendRow (BitVec.ofNat 8 s.host.idx.val))), phase := .held } } := by
  simp [displayTurn, hw, hp]

/-- Once the word is accepted IDX and the deadline advance (R138, R139). -/
theorem displayTurn_of_held {s : State} (hw : s.host.port = none) (hp : s.host.phase = .held) :
    displayTurn s = { s with
      host := { s.host with idx := nextRow s.host.idx, dl := s.host.dl + Config.rowPeriod, phase := .dormant } } := by
  simp [displayTurn, hw, hp]

/-- Other host code presents its next word on a free port (R100). -/
theorem presentTurn_of_free {s : State} {w : Word} {ws : List Word} (hw : s.host.port = none) (hp : s.host.phase = .dormant)
    (hc : s.host.cmds = w :: ws) : presentTurn s = { s with host := { s.host with port := some w, cmds := ws } } := by
  simp [presentTurn, hw, hp, hc]

/-- The host presents nothing while it is held, and nothing when no word is left (log 3). -/
theorem presentTurn_of_held {s : State} (h : s.host.phase = .held ∨ s.host.port ≠ none ∨ s.host.cmds = []) :
    presentTurn s = s := by
  unfold presentTurn
  split
  next w ws hw hp hc => simp [hw, hp, hc] at h
  next => rfl

/-- The word of SEND_ROW k for one of the eight rows (R53). -/
theorem encode_sendRow_row : ∀ k : Fin 8,
    encode (.sendRow (BitVec.ofNat 8 k.val)) = 0x2000 ||| BitVec.ofNat 16 (k.val * 256) := by
  decide

/-- Settles O40, by the cases of the two turns. -/
theorem displayActivation : Obligations.DisplayActivation := by
  refine ⟨fun s => ⟨fun hp hw => ?dormant, fun w hw => displayTurn_of_port hw, fun hp hw => displayTurn_of_held hw hp,
    fun w ws hp hw hc => presentTurn_of_free hw hp hc, presentTurn_of_held⟩,
    fun s => ⟨fun ht => ?display, fun ht => ?present⟩⟩
  case dormant => rw [displayTurn_of_dormant hw hp, encode_sendRow_row]
  case display => exact step_of_takeTurn (by rw [ht]; rfl)
  case present => exact step_of_takeTurn (by rw [ht]; rfl)

/-! ### The row lines between commands -/

/-- The row lines that a trace leading to f leaves when rows are sent in cyclic order: only the active row on (R110, R113). -/
def restRows : Fsm → Vector Bool 8
  | .rowActive p => onlyRow p
  | _ => noRow

theorem prevRow_nextRow (p : Fin 8) : prevRow (nextRow p) = p := prevRow_eq_of_next rfl

/-- The row after which duty 3 allows row r is the one R110 asks for. -/
theorem cyclicRows_of_followsCyclic {f : Fsm} {r : Fin 8} (h : followsCyclic f r) : CyclicRows (restRows f) r := by
  cases f with
  | bankInit => exact .inl rfl
  | rowActive p =>
    cases h
    exact .inr (by rw [prevRow_nextRow]; rfl)
  | uninit => exact h.elim
  | faulted => exact h.elim

theorem ready_of_followsCyclic {f : Fsm} {r : Fin 8} (h : followsCyclic f r) : f.ready = true := by
  cases f with
  | bankInit => rfl
  | rowActive p => rfl
  | uninit => exact h.elim
  | faulted => exact h.elim

/-- A row sent in cyclic order lights at most one row throughout, and leaves only itself on (R110). -/
theorem sendRow_in_cycle {ls : Lines} {f : Fsm} {r : Fin 8} (hrows : ls.rows = restRows f) (h : followsCyclic f r)
    (g : Byte → Byte) (p : Vector Byte 24) :
    OneRowDuring ls (rowEvents g r p) ∧ (ls.performAll (rowEvents g r p)).rows = restRows (.rowActive r) := by
  have hcyclic : CyclicRows ls.rows r := hrows ▸ cyclicRows_of_followsCyclic h
  exact ⟨hcyclic.oneRowDuring g p, by rw [performAll_rowEvents_eq]; exact hcyclic.rowsAfter_eq⟩

/-! ### A run of the display task -/

theorem turn_ofTaskRun {s : State} (h : ∀ t ∈ s.turns, Turn.ofTaskRun t) : Turn.ofTaskRun s.turn := by
  unfold State.turn
  cases ht : s.turns with
  | nil => trivial
  | cons t ts => exact h t (by simp [ht])

/-- Taking a turn off the list leaves a state of a run of the task. -/
theorem taskRun_popTurn {s : State} (h : TaskRun s) : TaskRun (popTurn s) where
  turns := fun t ht => h.turns t (List.mem_of_mem_tail ht)
  cursor := h.cursor
  task := h.task
  oneRow := h.oneRow
  final := h.final

/-- The chip is no part of what makes a run of the task. -/
theorem taskRun_settle {s : State} (h : TaskRun s) : TaskRun (settle s) where
  turns := by rw [settle_turns]; exact h.turns
  cursor := by rw [settle_host]; exact h.cursor
  task := by rw [settle_host, settle_block]; exact h.task
  oneRow := by rw [settle_block]; exact h.oneRow
  final := by rw [settle_block]; exact h.final

/-- A turn of the host that leaves the block alone but for FB has CURSOR and the task's order to keep. -/
theorem taskRun_of_host {s t : State} (h : TaskRun s) (hblock : t.block = { s.block with fb := t.block.fb })
    (hturns : t.turns = s.turns) (hcursor : t.host.cursor.val < 192) (htask : taskInOrder t.host s.block.finalFsm) :
    TaskRun t where
  turns := hturns ▸ h.turns
  cursor := hcursor
  task := by rw [hblock]; exact htask
  oneRow := by rw [hblock]; exact h.oneRow
  final := by rw [hblock]; exact h.final

/-- An event step leads where the trace led before, with the events after the head still to be performed (R101). -/
theorem taskRun_eventStep {s : State} {e : Event} {rest : List Event} (h : TaskRun s)
    (hp : s.block.pend = e :: rest) : TaskRun (eventStep e rest s) where
  turns := h.turns
  cursor := h.cursor
  task := by rw [finalFsm_eventStep hp]; exact h.task
  oneRow := fun n => by
    have hnext := h.oneRow (n + 1)
    rw [hp] at hnext
    exact hnext
  final := by rw [finalLines_eventStep hp, finalFsm_eventStep hp]; exact h.final

/-- In a run of the task a word on the port is the task's SEND_ROW IDX, and IDX is the row that may be sent next. -/
theorem word_on_port_of_taskRun {s : State} {w : Word} (h : TaskRun s) (hw : s.host.port = some w) :
    s.host.phase = .held ∧ w = encode (.sendRow (BitVec.ofNat 8 s.host.idx.val)) ∧
      followsCyclic s.block.finalFsm s.host.idx := by
  have htask := h.task
  cases hphase : s.host.phase with
  | dormant => simp [taskInOrder, hphase, hw] at htask
  | held =>
    simp only [taskInOrder, hphase, hw] at htask
    exact ⟨rfl, htask⟩

/-- The acceptance of the task's word starts the trace of the row that may be sent next (R110, R138). -/
theorem taskRun_startTrace {s : State} {w : Word} (h : TaskRun s) (hp : s.block.pend = []) (hw : s.host.port = some w)
    (g : Byte → Byte) (p : Vector Byte 24) :
    TaskRun (startTrace (rowEvents g s.host.idx p) (.rowActive s.host.idx) (takeWord s)) := by
  obtain ⟨hphase, -, hnext⟩ := word_on_port_of_taskRun h hw
  have hrows : s.block.lines.rows = restRows s.block.finalFsm := (congrArg Lines.rows (finalLines_of_idle hp)).symm.trans h.final
  obtain ⟨hone, hlast⟩ := sendRow_in_cycle hrows hnext g p
  have hfinal : (startTrace (rowEvents g s.host.idx p) (.rowActive s.host.idx) (takeWord s)).block.finalFsm =
      .rowActive s.host.idx := finalFsm_of_busy (rowEvents_ne_nil g s.host.idx p)
  exact {
    turns := h.turns
    cursor := h.cursor
    task := by
      rw [hfinal]
      simp only [taskInOrder, startTrace_host, takeWord_phase, takeWord_port, takeWord_idx, hphase]
    oneRow := hone
    final := by
      rw [hfinal]
      exact hlast }

/-- The word on the port of an idle block is accepted and starts the row's trace (R100, R108). -/
theorem blockTurn_of_taskRun_word {s : State} {w : Word} (h : TaskRun s) (hp : s.block.pend = []) (hw : s.host.port = some w) :
    blockTurn s = .next (startTrace (rowEvents Config.gamma s.host.idx (s.block.fb.rowBytes s.host.idx))
      (.rowActive s.host.idx) (takeWord s)) := by
  obtain ⟨-, rfl, hnext⟩ := word_on_port_of_taskRun h hw
  have hready : s.block.fsm.ready = true := finalFsm_of_idle hp ▸ ready_of_followsCyclic hnext
  have hwf : (Instr.sendRow (BitVec.ofNat 8 s.host.idx.val)).wellFormed = true := by
    simp only [Instr.wellFormed, BitVec.toNat_ofNat, decide_eq_true_eq]
    omega
  rw [blockTurn_of_decoded hp hw (decode_encode hwf), exec_sendRow_of_ready s.host.idx hp hready]

/-- An idle block with no word on the port waits (R181). -/
theorem blockTurn_of_no_word {s : State} (hp : s.block.pend = []) (hw : s.host.port = none) : blockTurn s = .next s := by
  simp [blockTurn, acceptPort, hp, hw]

/-- The block's turn keeps a run of the task: it performs an event, accepts the task's word, or waits. -/
theorem taskRun_blockTurn {s t : State} (h : TaskRun s) (ht : blockTurn s = .next t) : TaskRun t := by
  cases hp : s.block.pend with
  | cons e rest =>
    cases ht.symm.trans (blockTurn_of_busy hp)
    exact taskRun_eventStep h hp
  | nil =>
    cases hw : s.host.port with
    | none =>
      cases ht.symm.trans (blockTurn_of_no_word hp hw)
      exact h
    | some w =>
      cases ht.symm.trans (blockTurn_of_taskRun_word h hp hw)
      exact taskRun_startTrace h hp hw _ _

/-- The task's own turn keeps its order: it issues SEND_ROW IDX, and IDX advances once that row's trace has started (R138). -/
theorem taskInOrder_displayTurn {s : State} {f : Fsm} (h : taskInOrder s.host f) : taskInOrder (displayTurn s).host f := by
  cases hw : s.host.port with
  | some w => rwa [displayTurn_of_port hw]
  | none =>
    cases hp : s.host.phase with
    | dormant =>
      rw [displayTurn_of_dormant hw hp]
      simp only [taskInOrder, hw, hp] at h
      exact ⟨rfl, h⟩
    | held =>
      rw [displayTurn_of_held hw hp]
      simp only [taskInOrder, hw, hp] at h
      simp [taskInOrder, hw, h, followsCyclic]

theorem displayTurn_cursor (s : State) : (displayTurn s).host.cursor = s.host.cursor := by
  unfold displayTurn
  split <;> rfl

/-- A received byte leaves CURSOR below 192 (R137). -/
theorem receive_cursor {x : Byte} {s t : State} (h : receive x s = .next t) : t.host.cursor.val < 192 := by
  rcases receive_cases h with ⟨-, rfl⟩ | ⟨-, hc, rfl⟩ | ⟨-, -, rfl⟩
  · exact Nat.zero_lt_succ 191
  · exact Nat.succ_lt_succ hc
  · exact Nat.zero_lt_succ 191

/-- A received byte leaves the port and the display task alone (R136). -/
theorem receive_task {x : Byte} {s t : State} (h : receive x s = .next t) :
    t.host.port = s.host.port ∧ t.host.phase = s.host.phase ∧ t.host.idx = s.host.idx := by
  rcases receive_cases h with ⟨-, rfl⟩ | ⟨-, -, rfl⟩ | ⟨-, -, rfl⟩ <;> exact ⟨rfl, rfl, rfl⟩

/-- Every turn that a run of the task can take keeps it one. -/
theorem taskRun_takeTurn {s t : State} {turn : Turn} (h : TaskRun s) (hturn : Turn.ofTaskRun turn)
    (ht : takeTurn turn s = .next t) : TaskRun t := by
  cases turn with
  | block => exact taskRun_blockTurn h ht
  | display =>
    obtain ⟨hblock, hturns⟩ := hostTurn_block (by decide) rfl ht
    cases ht
    exact taskRun_of_host h hblock hturns (by rw [displayTurn_cursor]; exact h.cursor) (taskInOrder_displayTurn h.task)
  | receive x =>
    obtain ⟨hblock, hturns⟩ := hostTurn_block (by simp) rfl ht
    obtain ⟨hport, hphase, hidx⟩ := receive_task ht
    refine taskRun_of_host h hblock hturns (receive_cursor ht) ?_
    simp only [taskInOrder, hport, hphase, hidx]
    exact h.task
  | present => exact hturn.elim
  | startup => exact hturn.elim
  | startTasks => exact hturn.elim
  | reset => exact hturn.elim

/-- Settles O41: a step is one turn of the run, and neither its removal from the list nor the settling of the chip matters. -/
theorem taskRunKept : Obligations.TaskRunKept := by
  intro s h
  obtain ⟨u, hu⟩ := takeTurn_next s.turn (s := popTurn s) h.cursor
  exact ⟨_, step_of_takeTurn hu, taskRun_settle (taskRun_takeTurn (taskRun_popTurn h) (turn_ofTaskRun h.turns) hu)⟩

/-! ### A host that keeps its duties -/

/-- The block between two commands of such a host: idle, not FAULTED, only the active row on. -/
structure BetweenCommands (s : State) : Prop where
  turns : s.turns = []
  idle : s.block.pend = []
  running : s.block.fsm ≠ .faulted
  rows : s.block.lines.rows = restRows s.block.fsm

theorem spares_initTrace_row (k : Fin 8) : Spares initTrace (.row k) := by
  simp only [initTrace, initStream, spares_append]
  exact ⟨⟨⟨⟨⟨by simp [Spares, delay], by simp [Spares, setLine]⟩, by simp [Spares, setLine]⟩,
    spares_sendBytes (by simp) (by simp) _⟩, spares_pulseLatch (by simp)⟩, by simp [Spares, setLine]⟩

/-- INIT at UNINIT writes no row line (R105, R113). -/
theorem init_in_cycle {ls : Lines} (h : ls.rows = noRow) :
    OneRowDuring ls initTrace ∧ (ls.performAll initTrace).rows = restRows .bankInit := by
  refine ⟨fun n => ?_, by rw [performAll_initTrace_eq]; exact h⟩
  rw [rows_performAll_take_of_spares spares_initTrace_row, h]
  exact atMostOneRow_noRow

/-- DISPLAY_FRAME first after INIT or after row 7 lights at most one row throughout, and leaves row 7 on (R115). -/
theorem displayFrame_in_cycle {ls : Lines} (h : CyclicRows ls.rows 0) (fb : Memory) :
    OneRowDuring ls (frameEvents fb) ∧ (ls.performAll (frameEvents fb)).rows = restRows (.rowActive 7) := by
  refine ⟨?_, by rw [performAll_frameEvents]; rfl⟩
  exact h.oneRowDuring_flatMap (rs := [1, 2, 3, 4, 5, 6, 7]) (by decide) Config.gamma fb.rowBytes

/-- A command that the duties allow is accepted with a trace that keeps to one row, and leads to where the duties allow the
commands after it (R143). -/
theorem BetweenCommands.exec_of_dutiful {s : State} {i : Instr} {is : List Instr} (h : BetweenCommands s)
    (hd : dutiful s.block.fsm (i :: is)) :
    ∃ es post, exec i s = .next (startTrace es post (takeWord s)) ∧ es ≠ [] ∧ post ≠ .faulted ∧ dutiful post is ∧
      OneRowDuring s.block.lines es ∧ (s.block.lines.performAll es).rows = restRows post := by
  have hrows := h.rows
  cases i with
  | init =>
    obtain ⟨hf, hd⟩ := hd
    rw [hf] at hrows
    exact ⟨_, _, exec_init_of_uninit h.idle hf, initTrace_ne_nil, by decide, hd, init_in_cycle hrows⟩
  | sendRow r =>
    obtain ⟨k, rfl, hnext, hd⟩ := hd
    exact ⟨_, _, exec_sendRow_of_ready k h.idle (ready_of_followsCyclic hnext), rowEvents_ne_nil _ _ _, by simp, hd,
      sendRow_in_cycle hrows hnext _ _⟩
  | displayFrame =>
    obtain ⟨hf, hd⟩ := hd
    have hnext : followsCyclic s.block.fsm 0 := by
      rcases hf with hf | hf <;> rw [hf]
      · trivial
      · rfl
    exact ⟨_, _, exec_displayFrame_of_ready h.idle (ready_of_followsCyclic hnext), frameEvents_ne_nil _, by simp, hd,
      displayFrame_in_cycle (hrows ▸ cyclicRows_of_followsCyclic hnext) _⟩

/-- One command of such a host runs to its end, where the next is due, with FAULT and FB as before. -/
theorem BetweenCommands.runProgram_cons {s : State} {i : Instr} {is : List Instr} (h : BetweenCommands s)
    (hd : dutiful s.block.fsm (i :: is)) :
    ∃ u, (∀ done, runProgram (i :: done) s = runProgram done u) ∧ BetweenCommands u ∧ dutiful u.block.fsm is ∧
      u.block.fault = s.block.fault ∧ u.block.fb = s.block.fb := by
  obtain ⟨es, post, hexec, hne, hpost, hd', -, hlast⟩ := h.exec_of_dutiful hd
  have hturns : (startTrace es post (takeWord s)).turns = [] := h.turns
  obtain ⟨u, hrun, hblock, -, hu⟩ := eventsRunInOrder es.length (startTrace es post (takeWord s)) hturns le_rfl hne
  refine ⟨u, fun done => by simp only [runProgram, hexec, startTrace_pend, hrun], ?_, ?_, ?_, ?_⟩
  · refine ⟨hu, ?_, ?_, ?_⟩ <;> rw [hblock]
    · simp
    · simpa using hpost
    · simpa using hlast
  all_goals rw [hblock]
  · simpa using hd'
  · rfl
  · rfl

/-- A part of the commands of such a host runs to its end, where the others are due, with FAULT and FB as before. -/
theorem BetweenCommands.runProgram_append {s : State} {done rest : List Instr} (h : BetweenCommands s)
    (hd : dutiful s.block.fsm (done ++ rest)) :
    ∃ u, runProgram done s = .next u ∧ BetweenCommands u ∧ dutiful u.block.fsm rest ∧
      u.block.fault = s.block.fault ∧ u.block.fb = s.block.fb := by
  induction done generalizing s with
  | nil => exact ⟨s, rfl, h, hd, rfl, rfl⟩
  | cons i done ih =>
    obtain ⟨t, hrun, ht, hdt, hfault, hfb⟩ := h.runProgram_cons hd
    obtain ⟨u, hrun', hu, hdu, hfault', hfb'⟩ := ih ht hdt
    exact ⟨u, (hrun done).trans hrun', hu, hdu, hfault'.trans hfault, hfb'.trans hfb⟩

/-- Settles O31: the commands before any one of them leave the block between commands, where that one is due. -/
theorem dutifulHostLightsOneRow : Obligations.DutifulHostLightsOneRow := by
  intro s is hturns hp hf hrows hd
  have h : BetweenCommands s := ⟨hturns, hp, by rw [hf]; decide, by rw [hrows, hf]; rfl⟩
  rw [← hf] at hd
  constructor
  · obtain ⟨u, hrun, hu, -, hfault, hfb⟩ := h.runProgram_append (rest := []) (by rwa [List.append_nil])
    exact ⟨u, hrun, hu.idle, hu.running, hfault, hfb⟩
  · rintro done rest i rfl
    obtain ⟨v, hrun, hv, hdv, -⟩ := h.runProgram_append hd
    obtain ⟨es, post, hexec, hne, -, -, hone, -⟩ := hv.exec_of_dutiful hdv
    refine ⟨v, _, hrun, hexec, hne, fun n hn => ?_⟩
    obtain ⟨u, hrun', hblock, -⟩ := exists_runSteps_startTrace post hv.turns hne hn
    exact ⟨u, hrun', by rw [hblock]; exact hone n⟩

end Sys2Proof.Proofs

/-! PROOFS. The frame receiver (45_host_environment.md): one byte, the frame exchange, and the bytes received since the marker, which
reach FB only when there are 192 of them. -/

namespace Sys2Proof.Proofs

open Sys2Proof.Machine Sys2Proof.Laws

/-! ### The exchange and one byte -/

/-- After the exchange FB holds what SCRATCH held (R133). -/
theorem read_exchange (s : State) (a : Fin 192) : (exchange s).block.fb.read a = s.host.scratch[a] := by
  have hfb : (exchange s).block.fb = s.block.fb.memWrite 0 192 s.host.scratch le_rfl := rfl
  rw [hfb, read_memWrite, dif_pos ⟨Nat.zero_le _, a.isLt⟩]
  rfl

/-- After the exchange SCRATCH holds what FB held (R133). -/
theorem scratch_exchange (s : State) (a : Fin 192) : (exchange s).host.scratch[a] = s.block.fb.read a :=
  getElem_bytes s.block.fb a.val a.isLt

/-- Settles O34: both halves of the swap, and the fields that the exchange does not write. -/
theorem exchangeSwaps : Obligations.ExchangeSwaps := fun s =>
  ⟨fun a => ⟨read_exchange s a, scratch_exchange s a⟩, rfl, rfl⟩

/-- The marker resets CURSOR (R136). -/
theorem receive_marker (s : State) : receive 0xFF s = .next { s with host := { s.host with cursor := 0 } } := rfl

/-- A byte that does not complete the frame is stored at CURSOR, which advances (R136). -/
theorem receive_of_lt {x : Byte} {s : State} (hx : x ≠ 0xFF) (h : s.host.cursor.val < 191) :
    receive x s = .next { s with
      host := { s.host with
        scratch := s.host.scratch.set s.host.cursor.val x (by omega), cursor := ⟨s.host.cursor.val + 1, by omega⟩ } } := by
  have hm : x ≠ Config.marker := hx
  have hc : s.host.cursor.val < 192 := by omega
  have hlast : s.host.cursor.val + 1 ≠ 192 := by omega
  simp [receive, hm, hc, hlast]

/-- The byte that completes the frame is stored and the frame exchanged, which resets CURSOR (R136). -/
theorem receive_of_last {x : Byte} {s : State} (hx : x ≠ 0xFF) (h : s.host.cursor.val = 191) :
    receive x s = .next (exchange { s with host := { s.host with scratch := s.host.scratch.set 191 x } }) := by
  have hm : x ≠ Config.marker := hx
  simp [receive, hm, h, exchange]

/-- Settles O37, by the three cases of a byte. -/
theorem receiveByte : Obligations.ReceiveByte := fun _ s =>
  ⟨fun hx => hx ▸ receive_marker s, fun h hx => receive_of_lt hx h, fun h hx => receive_of_last hx h⟩

/-! ### FB changes only by an exchange -/

/-- The block never writes FB (R132). -/
theorem blockTurn_fb {s t : State} (h : blockTurn s = .next t) : t.block.fb = s.block.fb := by
  rcases blockTurn_cases h with ⟨e, rest, -, rfl⟩ | ⟨-, -, rfl⟩ | ⟨w, -, -, hcase⟩
  · rfl
  · rfl
  · rcases hcase with ⟨-, rfl⟩ | ⟨-, why, -, rfl⟩ | ⟨-, i, f, -, -, rfl⟩ | ⟨-, i, es, post, -, -, -, -, rfl⟩ <;> rfl

/-- A received byte leaves FB as it was, or completes a frame, which FB then holds (R136). -/
theorem receive_fb {x : Byte} {s t : State} (h : receive x s = .next t) :
    t.block.fb = s.block.fb ∨
    (x ≠ 0xFF ∧ s.host.cursor.val = 191 ∧ ∀ a : Fin 192, t.block.fb.read a = (s.host.scratch.set 191 x)[a]) := by
  rcases receive_cases h with ⟨-, rfl⟩ | ⟨-, -, rfl⟩ | ⟨hx, hc, rfl⟩
  · exact .inl rfl
  · exact .inl rfl
  · exact .inr ⟨hx, hc, read_exchange _⟩

/-- A turn that resets nothing leaves FB as it was, or receives the byte that completes a frame (R132). -/
theorem takeTurn_fb {s t : State} {turn : Turn} (hr : turn.resets = false) (h : takeTurn turn s = .next t) :
    t.block.fb = s.block.fb ∨
    ∃ x, turn = .receive x ∧ x ≠ 0xFF ∧ s.host.cursor.val = 191 ∧
      ∀ a : Fin 192, t.block.fb.read a = (s.host.scratch.set 191 x)[a] := by
  cases turn with
  | block => exact .inl (blockTurn_fb h)
  | receive x => exact (receive_fb h).imp_right fun hlast => ⟨x, rfl, hlast⟩
  | present =>
    cases h
    unfold presentTurn
    split <;> exact .inl rfl
  | display =>
    cases h
    unfold displayTurn
    split <;> exact .inl rfl
  | startTasks =>
    cases h
    exact .inl rfl
  | startup => cases hr
  | reset => cases hr

/-- Settles O35: a step is one turn, and the settling of the chip leaves FB alone. -/
theorem frameChangesOnlyByExchange : Obligations.FrameChangesOnlyByExchange := by
  intro s t h hr
  rw [step_eq_turn] at h
  obtain ⟨u, hu, rfl⟩ := mapNext_eq_next h
  rw [settle_block]
  rcases takeTurn_fb hr hu with hfb | ⟨x, hx, hne, hc, hread⟩
  · exact .inl fun a => by rw [hfb, popTurn_block]
  · refine .inr ⟨x, hx, hne, hc, fun a => ?_⟩
    rw [hread]
    simp [Vector.getElem_set, eq_comm]

/-! ### The bytes received since the marker -/

/-- The bytes of SCRATCH before CURSOR: those received since the marker (R136). -/
def receivedBytes (h : HostState) : List Byte := h.scratch.toList.take h.cursor.val

theorem length_receivedBytes (h : HostState) : (receivedBytes h).length = h.cursor.val := by
  rw [receivedBytes, List.length_take, Vector.length_toList]
  omega

/-- A vector with place i written holds, up to i, what it held before i and then what was written. -/
theorem take_toList_set {n : Nat} (v : Vector Byte n) {i : Nat} (h : i < n) (x : Byte) :
    (v.set i x).toList.take (i + 1) = v.toList.take i ++ [x] := by
  have hlen : i < (v.toList.set i x).length := by simpa using h
  rw [Vector.toList_set, List.take_succ_eq_append_getElem hlen, List.take_set_of_le le_rfl, List.getElem_set_self]

/-- With only the turns of received bytes left, a step is the receipt of the first. -/
theorem runSteps_succ_of_receive {s u : State} {x : Byte} {ts : List Turn} {n : Nat} (ht : s.turns = .receive x :: ts)
    (h : receive x (popTurn s) = .next u) : runSteps (n + 1) s = runSteps n (settle u) := by
  have hturn : s.turn = .receive x := by rw [State.turn, ht]; rfl
  rw [runSteps, step_of_takeTurn (u := u) (by rw [hturn]; exact h)]

/-- The step that receives the marker starts a frame (R136). -/
theorem exists_runSteps_marker {s : State} {ts : List Turn} (ht : s.turns = .receive 0xFF :: ts) :
    ∃ t, (∀ n, runSteps (n + 1) s = runSteps n t) ∧ t.block = s.block ∧ receivedBytes t.host = [] ∧
      t.host.port = s.host.port ∧ t.turns = ts := by
  refine ⟨_, fun n => runSteps_succ_of_receive ht (receive_marker _), settle_block _, ?_, ?_, ?_⟩
  · rw [settle_host]
    rfl
  · rw [settle_host, popTurn_host]
  · rw [settle_turns, popTurn_turns, ht, List.tail_cons]

/-- The step that receives a byte with room for one more after it adds it to those received (R136). -/
theorem exists_runSteps_byte {s : State} {x : Byte} {ts : List Turn} (ht : s.turns = .receive x :: ts) (hx : x ≠ 0xFF)
    (hroom : (receivedBytes s.host).length < 191) :
    ∃ t, (∀ n, runSteps (n + 1) s = runSteps n t) ∧ t.block = s.block ∧
      receivedBytes t.host = receivedBytes s.host ++ [x] ∧ t.host.port = s.host.port ∧ t.turns = ts := by
  rw [length_receivedBytes] at hroom
  refine ⟨_, fun n => runSteps_succ_of_receive ht (receive_of_lt (s := popTurn s) hx hroom), settle_block _, ?_, ?_, ?_⟩
  · rw [settle_host]
    exact take_toList_set s.host.scratch (hroom.trans (by decide)) x
  · rw [settle_host]
    rfl
  · rw [settle_turns, popTurn_turns, ht, List.tail_cons]

/-- Bytes that do not complete a frame add themselves to those received and leave the block and the port alone (R136). -/
theorem exists_runSteps_bytes {xs : List Byte} {s : State} {ts : List Turn} (ht : s.turns = xs.map Turn.receive ++ ts)
    (hxs : ∀ x ∈ xs, x ≠ 0xFF) (hroom : (receivedBytes s.host).length + xs.length < 192) :
    ∃ t, (∀ n, runSteps (n + xs.length) s = runSteps n t) ∧ t.block = s.block ∧
      receivedBytes t.host = receivedBytes s.host ++ xs ∧ t.host.port = s.host.port ∧ t.turns = ts := by
  induction xs generalizing s with
  | nil => exact ⟨s, fun n => rfl, rfl, (List.append_nil _).symm, rfl, ht⟩
  | cons x xs ih =>
    rw [List.length_cons] at hroom
    obtain ⟨u, hrun, hblock, hreceived, hport, hturns⟩ := exists_runSteps_byte ht (hxs x List.mem_cons_self) (by omega)
    have hroom' : (receivedBytes u.host).length + xs.length < 192 := by
      rw [hreceived, List.length_append, List.length_singleton]
      omega
    obtain ⟨t, hrun', hblock', hreceived', hport', hturns'⟩ := ih hturns (fun y hy => hxs y (List.mem_cons_of_mem _ hy)) hroom'
    refine ⟨t, fun n => ?_, hblock'.trans hblock, ?_, hport'.trans hport, hturns'⟩
    · rw [List.length_cons, ← Nat.add_assoc, hrun, hrun']
    · rw [hreceived', hreceived, List.append_assoc, List.singleton_append]

/-- The step that receives the 192nd byte leaves the bytes received in FB and the frame before in SCRATCH (R133, R136). -/
theorem exists_runSteps_last {s : State} {x : Byte} {ts : List Turn} {frame : Vector Byte 192}
    (ht : s.turns = .receive x :: ts) (hx : x ≠ 0xFF) (hframe : receivedBytes s.host ++ [x] = frame.toList) :
    ∃ t, (∀ n, runSteps (n + 1) s = runSteps n t) ∧ (∀ a : Fin 192, t.block.fb.read a = frame[a]) ∧
      (∀ a : Fin 192, t.host.scratch[a] = s.block.fb.read a) ∧ t.host.cursor = 0 ∧
      t.block = { s.block with fb := t.block.fb } ∧ t.turns = ts := by
  have hcursor : s.host.cursor.val = 191 := by
    have hlen := congrArg List.length hframe
    rw [List.length_append, length_receivedBytes, Vector.length_toList] at hlen
    exact Nat.succ.inj hlen
  have hscratch : s.host.scratch.set 191 x = frame := by
    rw [← Vector.toList_inj, ← hframe, receivedBytes, hcursor, ← take_toList_set _ (by decide), List.take_of_length_le]
    simp
  refine ⟨_, fun n => runSteps_succ_of_receive ht (receive_of_last (s := popTurn s) hx hcursor), ?_, ?_, ?_, ?_, ?_⟩
  · rw [settle_block, ← hscratch]
    exact read_exchange _
  · rw [settle_host]
    exact scratch_exchange _
  · rw [settle_host, exchange_cursor]
  · rw [settle_block]
    rfl
  · rw [settle_turns, exchange_turns, popTurn_turns, ht, List.tail_cons]

/-- Settles O39: the bytes after the marker are those received, and CURSOR counts them. -/
theorem partialFrameUnseen : Obligations.PartialFrameUnseen := by
  intro s xs hxs hlen ht
  obtain ⟨u, hrun, hblock, hreceived, hport, hturns⟩ := exists_runSteps_marker ht
  obtain ⟨t, hrun', hblock', hreceived', hport', hturns'⟩ :=
    exists_runSteps_bytes (ts := []) (by rwa [List.append_nil]) hxs (by rwa [hreceived, List.length_nil, Nat.zero_add])
  refine ⟨t, ?_, hblock'.trans hblock, ?_, hport'.trans hport, hturns'⟩
  · rw [Nat.add_comm, hrun, ← Nat.zero_add xs.length, hrun' 0, runSteps]
  · rw [← length_receivedBytes, hreceived', hreceived, List.nil_append]

/-- Settles O38: the marker, then 191 bytes that leave FB alone, then the byte that completes the frame. -/
theorem frameReceived : Obligations.FrameReceived := by
  intro s xs hxs ht
  obtain ⟨front, x, hsplit⟩ : ∃ front x, xs.toList = front ++ [x] :=
    ⟨_, _, (List.dropLast_append_getLast (List.ne_nil_of_length_pos (by simp))).symm⟩
  have hfront : front.length = 191 := by
    have hlen := congrArg List.length hsplit
    rw [List.length_append, Vector.length_toList] at hlen
    exact (Nat.succ.inj hlen).symm
  have hne : ∀ y ∈ front ++ [x], y ≠ 0xFF := by
    intro y hy
    rw [← hsplit, Vector.mem_toList_iff, Vector.mem_iff_getElem] at hy
    obtain ⟨i, hi, rfl⟩ := hy
    exact hxs ⟨i, hi⟩
  rw [hsplit, List.map_append] at ht
  obtain ⟨u, hrun, hblock, hreceived, -, hturns⟩ := exists_runSteps_marker ht
  obtain ⟨v, hrun', hblock', hreceived', -, hturns'⟩ := exists_runSteps_bytes hturns
    (fun y hy => hne y (List.mem_append_left _ hy)) (by rw [hreceived, hfront]; decide)
  rw [hreceived, List.nil_append] at hreceived'
  obtain ⟨t, hrun'', hread, hscratch, hcursor, hlast, hturns''⟩ :=
    exists_runSteps_last hturns' (hne x (by simp)) (frame := xs) (by rw [hreceived', hsplit])
  have hsteps : runSteps 193 s = .next t := by
    rw [hrun 192, show 192 = 1 + front.length by rw [hfront], hrun' 1, hrun'' 0, runSteps]
  rw [hblock', hblock] at hlast hscratch
  exact ⟨t, hsteps, hread, hscratch, hcursor, hlast, hturns''⟩

end Sys2Proof.Proofs

/-! PROOFS. The image content (45_host_environment.md): which values binary32 holds exactly, rounding and clamping, and the cells of
images and gradients. -/

namespace Sys2Proof.Proofs

open Sys2Proof.Machine Sys2Proof.Laws

/-! ### The values of binary32 -/

/-- A positive rational lies within a factor of two of the quotient of the powers of two below its numerator and denominator. -/
theorem zpow_log2_bounds {q : Rat} (h : 0 < q) :
    (2 : Rat) ^ ((Nat.log2 q.num.toNat : Int) - (Nat.log2 q.den : Int) - 1) < q ∧
    q < (2 : Rat) ^ ((Nat.log2 q.num.toNat : Int) - (Nat.log2 q.den : Int) + 1) := by
  have hnum : 0 < q.num := Rat.num_pos.2 h
  have hden : (0 : Rat) < q.den := by exact_mod_cast q.den_pos
  have hq : q = (q.num.toNat : Rat) / (q.den : Rat) := by
    have hcast : ((q.num.toNat : Int) : Rat) = (q.num : Rat) := by rw [Int.toNat_of_nonneg hnum.le]
    rw [← Int.cast_natCast q.num.toNat, hcast]
    exact (Rat.num_div_den q).symm
  have hnumLe : (2 : Rat) ^ Nat.log2 q.num.toNat ≤ q.num.toNat := by exact_mod_cast Nat.log2_self_le (by omega)
  have hnumLt : (q.num.toNat : Rat) < 2 ^ (Nat.log2 q.num.toNat + 1) := by exact_mod_cast Nat.lt_log2_self
  have hdenLe : (2 : Rat) ^ Nat.log2 q.den ≤ q.den := by exact_mod_cast Nat.log2_self_le q.den_nz
  have hdenLt : (q.den : Rat) < 2 ^ (Nat.log2 q.den + 1) := by exact_mod_cast Nat.lt_log2_self
  generalize Nat.log2 q.num.toNat = a at *
  generalize Nat.log2 q.den = b at *
  constructor
  · have hpow : (2 : Rat) ^ ((a : Int) - b - 1) = 2 ^ a / 2 ^ (b + 1) := by
      rw [sub_sub, zpow_sub₀ two_ne_zero]
      norm_cast
    rw [hpow, hq]
    exact div_lt_div₀' hnumLe hdenLt ((pow_pos two_pos a).trans_le hnumLe) hden
  · have hpow : (2 : Rat) ^ ((a : Int) - b + 1) = 2 ^ (a + 1) / 2 ^ b := by
      rw [sub_add_eq_add_sub, zpow_sub₀ two_ne_zero]
      norm_cast
    rw [hpow, hq]
    exact div_lt_div₀ hnumLt hdenLe (by positivity) (by positivity)

/-- The exponent of a positive rational is the one its definition asks for. -/
theorem binaryExponent_spec {q : Rat} (h : 0 < q) : pow2 (binaryExponent q) ≤ q ∧ q < pow2 (binaryExponent q + 1) := by
  obtain ⟨hlo, hhi⟩ := zpow_log2_bounds h
  simp only [binaryExponent]
  split
  next hle => exact ⟨hle, by rwa [pow2_eq_zpow]⟩
  next hlt => exact ⟨by rw [pow2_eq_zpow]; exact hlo.le, by rw [sub_add_cancel]; exact not_le.mp hlt⟩

theorem roundHalfEven_intCast (n : Int) : roundHalfEven (n : Rat) = n := by
  simp [roundHalfEven, Rat.floor_intCast]

/-- Rounding to the even integer passes no integer. -/
theorem roundHalfEven_le_of_le {q : Rat} {n : Int} (h : q ≤ n) : roundHalfEven q ≤ n := by
  have hfloor : q.floor ≤ n := by exact_mod_cast (Rat.floor_le q).trans h
  rcases hfloor.eq_or_lt with heq | hlt
  · have hd : q - n < 1 / 2 := by linarith
    simp only [roundHalfEven, heq, hd, if_true, le_refl]
  · simp only [roundHalfEven]
    split_ifs <;> omega

/-- A value of at most 24 significant bits on the grid of least exponent -149 is its own rounding. -/
theorem roundBinary32_of_lt {k j : Int} (hk : 0 ≤ k) (hlt : k < 2 ^ 24) (hj : -149 ≤ j) :
    roundBinary32 (k * pow2 j) = k * pow2 j := by
  rcases hk.eq_or_lt with rfl | hpos
  · have hzero : roundHalfEven 0 = 0 := by simpa using roundHalfEven_intCast 0
    simp [roundBinary32, hzero]
  have hposq : (0 : Rat) < k * pow2 j := mul_pos (by exact_mod_cast hpos) (pow2_pos j)
  have hexp : binaryExponent (k * pow2 j) < 24 + j := by
    have hbound : (k : Rat) * pow2 j < 2 ^ (24 + j) := by
      rw [zpow_add₀ two_ne_zero, ← pow2_eq_zpow j]
      exact mul_lt_mul_of_pos_right (by exact_mod_cast hlt) (pow2_pos j)
    have hle := (binaryExponent_spec hposq).1
    rw [pow2_eq_zpow] at hle
    exact (zpow_lt_zpow_iff_right₀ one_lt_two).mp (hle.trans_lt hbound)
  obtain ⟨d, hd⟩ : ∃ d : Nat, j = max (binaryExponent (k * pow2 j) - 23) (-149) + d :=
    ⟨(j - max (binaryExponent (k * pow2 j) - 23) (-149)).toNat, by omega⟩
  simp only [roundBinary32]
  generalize max (binaryExponent (k * pow2 j) - 23) (-149) = quantum at *
  have hgrid : (k : Rat) * pow2 j = ((k * 2 ^ d : Int) : Rat) * pow2 quantum := by
    rw [hd, pow2_eq_zpow, pow2_eq_zpow, zpow_add₀ two_ne_zero]
    push_cast
    rw [zpow_natCast]
    ring
  rw [hgrid, mul_div_cancel_right₀ _ (pow2_pos quantum).ne', roundHalfEven_intCast]

/-- A rounded value is its own rounding: it has at most 24 significant bits, or is the next power of two. -/
theorem roundBinary32_idem {q : Rat} (h : 0 < q) : roundBinary32 (roundBinary32 q) = roundBinary32 q := by
  have hj : -149 ≤ max (binaryExponent q - 23) (-149) := le_max_right _ _
  have hbound : q / pow2 (max (binaryExponent q - 23) (-149)) ≤ ((2 ^ 24 : Int) : Rat) := by
    rw [div_le_iff₀ (pow2_pos _)]
    refine (binaryExponent_spec h).2.le.trans ?_
    have hle : binaryExponent q + 1 ≤ 24 + max (binaryExponent q - 23) (-149) := by omega
    have h24 : ((2 ^ 24 : Int) : Rat) = 2 ^ (24 : Int) := by norm_num
    rw [pow2_eq_zpow, pow2_eq_zpow, h24, ← zpow_add₀ two_ne_zero]
    exact zpow_le_zpow_right₀ one_le_two hle
  have hnonneg : 0 ≤ roundHalfEven (q / pow2 (max (binaryExponent q - 23) (-149))) :=
    roundHalfEven_nonneg (div_nonneg h.le (pow2_pos _).le)
  have hvalue : roundBinary32 q = roundHalfEven (q / pow2 (max (binaryExponent q - 23) (-149))) *
      pow2 (max (binaryExponent q - 23) (-149)) := rfl
  rw [hvalue]
  generalize max (binaryExponent q - 23) (-149) = j at *
  rcases (roundHalfEven_le_of_le hbound).eq_or_lt with heq | hlt
  · have hnext : ((2 ^ 24 : Int) : Rat) * pow2 j = ((2 ^ 23 : Int) : Rat) * pow2 (j + 1) := by
      rw [pow2_eq_zpow, pow2_eq_zpow, zpow_add₀ two_ne_zero]
      push_cast
      ring
    rw [heq, hnext]
    exact roundBinary32_of_lt (by norm_num) (by norm_num) (by omega)
  · exact roundBinary32_of_lt hnonneg hlt hj

/-- What `fl32` answers of a positive value whose rounding is below 2^128. -/
theorem fl32_of_pos {q : Rat} (h : 0 < q) (hlt : roundBinary32 q < pow2 128) : fl32 q = .finite (roundBinary32 q) := by
  rw [fl32_of_nonneg h.le, if_neg h.ne', if_neg (not_le.mpr hlt)]

/-- A value that `fl32` answers for one that is not negative is not negative, and is a binary32 value: its own `fl32`. -/
theorem fl32_idem {q s : Rat} (h : 0 ≤ q) (hs : fl32 q = .finite s) : 0 ≤ s ∧ fl32 s = .finite s := by
  rw [fl32_of_nonneg h] at hs
  split_ifs at hs with hz hbig <;> cases hs
  · exact ⟨le_rfl, rfl⟩
  have hs : 0 ≤ roundBinary32 q := roundBinary32_nonneg h
  refine ⟨hs, ?_⟩
  have hidem := roundBinary32_idem (h.lt_of_ne' hz)
  rcases hs.eq_or_lt with hzero | hpos
  · rw [← hzero]
    rfl
  · rw [fl32_of_pos hpos (by rw [hidem]; exact not_le.mp hbig), hidem]

/-- Every integer below 2^24 is a binary32 value. -/
theorem fl32_natCast {n : Nat} (h : n < 2 ^ 24) : fl32 (n : Rat) = .finite n := by
  rcases n.eq_zero_or_pos with rfl | hpos
  · rfl
  have hone : pow2 0 = 1 := by rw [pow2_eq_zpow, zpow_zero]
  have hround := roundBinary32_of_lt (k := n) (j := 0) (Int.natCast_nonneg n) (by exact_mod_cast h) (by decide)
  rw [hone, mul_one, Int.cast_natCast] at hround
  have hbig : (n : Rat) < pow2 128 := by
    have hlt : (n : Rat) < 2 ^ 24 := by exact_mod_cast h
    rw [pow2_eq_zpow]
    exact hlt.trans (by norm_num)
  rw [fl32_of_pos (by exact_mod_cast hpos) (by rwa [hround]), hround]

/-! ### Rounding and clamping -/

theorem roundHalfAway_mono : Monotone roundHalfAway := by
  intro p q h
  unfold roundHalfAway
  split_ifs with hp hq hq
  · exact Rat.floor_monotone (by linarith)
  · exact absurd (hp.trans h) hq
  · have hlo : 0 ≤ (-p + 1 / 2).floor := Rat.le_floor_iff.mpr (by push_cast; linarith)
    have hhi : 0 ≤ (q + 1 / 2).floor := Rat.le_floor_iff.mpr (by push_cast; linarith)
    omega
  · exact neg_le_neg (Rat.floor_monotone (by linarith))

theorem roundHalfAway_natCast (n : Nat) : roundHalfAway (n : Rat) = n := by
  rw [roundHalfAway, if_pos (Nat.cast_nonneg n)]
  refine le_antisymm (Int.lt_add_one_iff.mp (Rat.floor_lt_iff.mpr ?_)) (Rat.le_floor_iff.mpr ?_) <;> push_cast <;> linarith

/-- A value clamped and then rounded is the value rounded and then clamped (R147): rounding keeps the order, 0 and 255. -/
theorem roundHalfAway_clamp (v : Rat) : roundHalfAway (min 255 (max 0 v)) = min 255 (max 0 (roundHalfAway v)) := by
  have h0 : roundHalfAway 0 = 0 := roundHalfAway_natCast 0
  have h255 : roundHalfAway 255 = 255 := roundHalfAway_natCast 255
  rw [roundHalfAway_mono.map_min, roundHalfAway_mono.map_max, h0, h255]

theorem toNat_clampByte (n : Int) : ((clampByte n).toNat : Int) = min 255 (max 0 n) := by
  simp only [clampByte, BitVec.toNat_ofNat]
  omega

/-- The product of a byte with 1 is the byte. -/
theorem roundClamp_fl32_byte (x : Byte) : roundClamp (fl32 (x.toNat : Rat)) = x := by
  have hx : x.toNat < 256 := x.isLt
  rw [fl32_natCast (hx.trans (by decide)), roundClamp, roundHalfAway_natCast]
  apply BitVec.eq_of_toNat_eq
  have hclamp := toNat_clampByte x.toNat
  omega

/-- Scaling by a scalar with a finite binary32 value rounds and clamps the product (R145): the byte itself is exact. -/
theorem scale_of_fl32 {q s : Rat} (x : Byte) (h : fl32 q = .finite s) :
    scale x (.finite q) = .ok (roundClamp (fl32 ((x.toNat : Rat) * s))) := by
  have hx : x.toNat < 256 := x.isLt
  simp only [scale, h, fl32_natCast (hx.trans (by decide)), mul32]

/-- Settles O58, by the binary32 product: finite, or infinite and then not negative. -/
theorem scaleRoundsClamped : Obligations.ScaleRoundsClamped := by
  intro x q s hq h
  refine ⟨_, scale_of_fl32 x h, ?_⟩
  have hproduct : 0 ≤ (x.toNat : Rat) * s := mul_nonneg (Nat.cast_nonneg _) (fl32_idem hq h).1
  cases hv : fl32 ((x.toNat : Rat) * s) with
  | finite v => exact (toNat_clampByte _).trans (roundHalfAway_clamp v).symm
  | inf negative =>
    rw [fl32_of_nonneg hproduct] at hv
    split_ifs at hv
    cases hv
    rfl
  | nan => rfl

/-- Settles O60: each of these scalars is no finite value. -/
theorem nonFiniteRefused : Obligations.NonFiniteRefused := fun _ _ => ⟨rfl, rfl, rfl, rfl, rfl⟩

/-! ### The cells of a gradient -/

/-- The channels of a colour, each times the binary32 value s, rounded and clamped (R145). -/
def scaledColor (c : Color) (s : Rat) : Color :=
  { r := roundClamp (fl32 ((c.r.toNat : Rat) * s))
    g := roundClamp (fl32 ((c.g.toNat : Rat) * s))
    b := roundClamp (fl32 ((c.b.toNat : Rat) * s)) }

theorem channel_scaledColor (c : Color) (s : Rat) (ch : Channel) :
    (scaledColor c s).channel ch = roundClamp (fl32 (((c.channel ch).toNat : Rat) * s)) := by
  cases ch with
  | r => rfl
  | g => rfl
  | b => rfl

theorem scaledColor_one (c : Color) : scaledColor c 1 = c := by
  simp only [scaledColor, mul_one, roundClamp_fl32_byte]

theorem scaleBy_of_fl32 {q s : Rat} (c : Color) (h : fl32 q = .finite s) :
    c.scaleBy (.finite q) = .ok (scaledColor c s) := by
  simp only [Color.scaleBy, scale_of_fl32 _ h]
  rfl

/-- Division by a value that is not 0 scales by the binary32 reciprocal, which is its own `fl32` (R146). -/
theorem divideBy_of_fl32 {q s : Rat} (c : Color) (hq : 0 < q) (h : fl32 (1 / q) = .finite s) :
    c.divideBy (.finite q) = .ok (scaledColor c s) := by
  rw [Color.divideBy, reciprocal, if_neg hq.ne', h]
  exact scaleBy_of_fl32 c (fl32_idem (one_div_pos.mpr hq).le h).2

theorem gradientDivisor_pos (row col : Fin 8) : 0 < gradientDivisor row col := by
  rw [gradientDivisor, Nat.add_assoc]
  exact Nat.lt_add_right _ one_pos

/-- The scalar of a gradient cell is finite, and at most 2 (R148). -/
theorem exists_gradient_scalar (row col : Fin 8) :
    ∃ s : Rat, fl32 (1 / (gradientDivisor row col : Rat)) = .finite s ∧ 0 ≤ s ∧ s ≤ 2 := by
  have hone : (1 : Rat) ≤ gradientDivisor row col := by exact_mod_cast gradientDivisor_pos row col
  have hle : 1 / (gradientDivisor row col : Rat) ≤ 1 := (div_le_one₀ (by linarith)).mpr hone
  obtain ⟨s, hs, hnonneg, hbound⟩ := fl32_finite (q := 1 / (gradientDivisor row col : Rat)) (by positivity) (by linarith)
  exact ⟨s, hs, hnonneg, by linarith⟩

/-- A gradient cell is the colour times the binary32 reciprocal of the cell's divisor (R148). -/
theorem gradientCell_of_fl32 {row col : Fin 8} {s : Rat} (c : Color)
    (h : fl32 (1 / (gradientDivisor row col : Rat)) = .finite s) : gradientCell c row col = .ok (scaledColor c s) :=
  divideBy_of_fl32 c (by exact_mod_cast gradientDivisor_pos row col) h

/-- The divisor of cell (0, 0) is 1, so the cell is the colour itself (R148). -/
theorem gradientCell_zero (c : Color) : gradientCell c 0 0 = .ok c := by
  have hone : fl32 (1 / (gradientDivisor 0 0 : Rat)) = .finite 1 := by
    have hdivisor : (1 : Rat) / (gradientDivisor 0 0 : Rat) = ((1 : Nat) : Rat) := by simp [gradientDivisor]
    rw [hdivisor, fl32_natCast (by decide), Nat.cast_one]
  rw [gradientCell_of_fl32 c hone, scaledColor_one]

/-- The product of a channel with a scalar of at most 2 is finite, so the scaled channel is its rounding, clamped (R145). -/
theorem exists_channel_scaledColor {s : Rat} (hnonneg : 0 ≤ s) (hle : s ≤ 2) (c : Color) (ch : Channel) :
    ∃ v : Rat, fl32 (((c.channel ch).toNat : Rat) * s) = .finite v ∧
      ((((scaledColor c s).channel ch).toNat : Nat) : Int) = min 255 (max 0 (roundHalfAway v)) := by
  have hbyte : ((c.channel ch).toNat : Rat) ≤ 255 := by exact_mod_cast Nat.le_of_lt_succ (c.channel ch).isLt
  have hproduct : ((c.channel ch).toNat : Rat) * s ≤ 255 * 2 := mul_le_mul hbyte hle hnonneg (by norm_num)
  obtain ⟨v, hv, -, -⟩ := fl32_finite (mul_nonneg (Nat.cast_nonneg _) hnonneg) (hproduct.trans (by norm_num))
  exact ⟨v, hv, by rw [channel_scaledColor, hv]; exact toNat_clampByte _⟩

/-! ### Images from their cells -/

/-- An image holds its cells at their addresses (R31, R144). -/
theorem imageBytes_frameAddr (cell : Fin 8 → Fin 8 → Color) (row col : Fin 8) (ch : Channel) :
    (imageBytes cell)[frameAddr row col ch] = (cell row col).channel ch := by
  simp

/-- Where every cell has a value, the gradient image is the image of these cells (R148). -/
theorem gradientImage_of_cells {c : Color} {cell : Fin 8 → Fin 8 → Color}
    (h : ∀ row col, gradientCell c row col = .ok (cell row col)) : gradientImage c = .ok (imageBytes cell) := by
  have hcells : ((List.finRange 64).mapM fun k : Fin 64 => gradientCell c ⟨k.val / 8, by omega⟩ ⟨k.val % 8, by omega⟩) =
      .ok ((List.finRange 64).map fun k : Fin 64 => cell ⟨k.val / 8, by omega⟩ ⟨k.val % 8, by omega⟩) := by
    simp only [h]
    exact List.mapM_pure
  simp only [gradientImage, hcells]
  refine congrArg Except.ok (Vector.ext fun a ha => ?_)
  have hlt : a / 3 < 64 := by omega
  simp [addrRow, addrCol, hlt]

theorem channel_black (ch : Channel) : Color.black.channel ch = 0 := by
  cases ch with
  | r => rfl
  | g => rfl
  | b => rfl

/-- Settles O59: every cell is the colour scaled, and an image is read by the layout of its cells. -/
theorem gradientCells : Obligations.GradientCells := by
  refine ⟨gradientCell_zero, fun c row col => ?cell, fun c => ?image, imageBytes_frameAddr,
    fun c => imageBytes_frameAddr fun _ _ => c, fun a => ?black⟩
  case cell =>
    obtain ⟨s, hs, hnonneg, hle⟩ := exists_gradient_scalar row col
    exact ⟨scaledColor c s, s, gradientCell_of_fl32 c hs, hs, exists_channel_scaledColor hnonneg hle c⟩
  case image =>
    choose scalar hscalar _ using exists_gradient_scalar
    have hcells : ∀ row col, gradientCell c row col = .ok (scaledColor c (scalar row col)) :=
      fun row col => gradientCell_of_fl32 c (hscalar row col)
    exact ⟨_, gradientImage_of_cells hcells, fun row col =>
      ⟨_, hcells row col, imageBytes_frameAddr (fun row col => scaledColor c (scalar row col)) row col⟩⟩
  case black =>
    simp only [defaultImage, uniformImage, Fin.getElem_fin, getElem_imageBytes, channel_black]

end Sys2Proof.Proofs

/-! PROOFS. The faults (60_exceptions.md): CHECK answers a cause exactly where R161 gives its condition, the acceptance of a word is
the only step that records one, and only a reset leaves FAULTED. -/

namespace Sys2Proof.Proofs

open Sys2Proof.Machine Sys2Proof.Laws

/-! ### CHECK and its precedence -/

theorem check_init_uninit : check (.ok .init) .uninit = none := rfl

theorem check_sendRow_of_in_range {fsm : Fsm} {r : BitVec 8} (hu : fsm ≠ .uninit) (hr : r.toNat ≤ 7) :
    check (.ok (.sendRow r)) fsm = none := by
  simp [check, hu, hr]

theorem check_displayFrame_of_ne_uninit {fsm : Fsm} (hu : fsm ≠ .uninit) : check (.ok .displayFrame) fsm = none := by
  simp [check, hu]

/-- Settles O6, by one equation of CHECK per situation. -/
theorem checkPrecedence : Obligations.CheckPrecedence :=
  ⟨fun _ _ => rfl, fun _ => check_init_of_ne_uninit, check_init_uninit, check_sendRow_uninit, check_displayFrame_uninit,
    fun _ _ => check_sendRow_of_out_of_range, fun _ _ => check_sendRow_of_in_range, fun _ => check_displayFrame_of_ne_uninit⟩

/-- A cause that CHECK answers has its condition (R161, R163). -/
theorem faultCondition_of_check {d : Except Illegal Instr} {fsm : Fsm} {f : FaultCause} (h : check d fsm = some f) :
    faultCondition f fsm d := by
  cases d with
  | error why =>
    cases h
    exact ⟨why, rfl⟩
  | ok i =>
    by_cases hu : fsm = .uninit
    · subst hu
      cases i with
      | init => cases h
      | sendRow r =>
        cases h
        exact ⟨rfl, .inl ⟨r, rfl⟩⟩
      | displayFrame =>
        cases h
        exact ⟨rfl, .inr rfl⟩
    · cases i with
      | init =>
        rw [check_init_of_ne_uninit hu] at h
        cases h
        exact ⟨hu, rfl⟩
      | sendRow r =>
        rcases Nat.lt_or_ge 7 r.toNat with hr | hr
        · rw [check_sendRow_of_out_of_range hu hr] at h
          cases h
          exact ⟨hu, r, rfl, hr⟩
        · rw [check_sendRow_of_in_range hu hr] at h
          cases h
      | displayFrame =>
        rw [check_displayFrame_of_ne_uninit hu] at h
        cases h

/-- CHECK answers a cause wherever its condition holds: the conditions of two causes never meet (R161, R163). -/
theorem check_of_faultCondition {d : Except Illegal Instr} {fsm : Fsm} {f : FaultCause} (h : faultCondition f fsm d) :
    check d fsm = some f := by
  cases f with
  | noFault => exact h.elim
  | rowRange =>
    obtain ⟨hu, r, rfl, hr⟩ := h
    exact check_sendRow_of_out_of_range hu hr
  | illegalCommand =>
    obtain ⟨why, rfl⟩ := h
    rfl
  | notInitialized =>
    obtain ⟨rfl, ⟨r, rfl⟩ | rfl⟩ := h
    · exact check_sendRow_uninit r
    · exact check_displayFrame_uninit
  | reinit =>
    obtain ⟨hu, rfl⟩ := h
    exact check_init_of_ne_uninit hu

/-! ### A fault is raised at an acceptance -/

/-- Settles O7: of the four things a step can do to the block only fault entry writes FAULT, and CHECK's answer is R161's condition. -/
theorem faultsRaisedExactly : Obligations.FaultsRaisedExactly := by
  refine ⟨fun s t h hr hne => ?changed, fun s w f ht hp hf hw hcond => ?raised⟩
  case changed =>
    rcases step_block_cases h hr with hblock | ⟨-, e, rest, -, hblock⟩ | ⟨hb, hp, hf, w, f, hw, hk, hblock⟩ |
      ⟨-, -, -, w, es, post, -, -, hblock⟩
    · exact absurd (by rw [hblock]) hne
    · exact absurd (by rw [hblock]) hne
    · rw [hblock]
      exact ⟨hb, hp, hf, w, hw, rfl, faultCondition_of_check hk⟩
    · exact absurd (by rw [hblock]) hne
  case raised =>
    have hturn : blockTurn (popTurn s) = .next (raise f w (takeWord (popTurn s))) :=
      blockTurn_of_fault hp hf hw (check_of_faultCondition hcond)
    refine ⟨_, step_of_blockTurn ht hturn, ?_, settle_host _⟩
    rw [settle_block, raise_takeWord_of_idle (s := popTurn s) hp]
    rfl

/-! ### Only a reset leaves FAULTED -/

/-- No turn of the host takes a waiting word from the port, a reset apart: only the block does (R100). -/
theorem hostTurn_port {s t : State} {turn : Turn} {w : Word} (hb : turn ≠ .block) (hr : turn.resets = false)
    (h : takeTurn turn s = .next t) (hw : s.host.port = some w) : t.host.port = some w := by
  cases turn with
  | block => exact absurd rfl hb
  | present =>
    cases h
    rw [presentTurn_of_held (.inr (.inl (by simp [hw])))]
    exact hw
  | receive x =>
    obtain ⟨hport, -, -⟩ := receive_task h
    exact hport.trans hw
  | display =>
    cases h
    rw [displayTurn_of_port hw]
    exact hw
  | startTasks =>
    cases h
    exact hw
  | startup => cases hr
  | reset => cases hr

/-- A turn that resets leaves the block of R20, whatever it was (R180, R183). -/
theorem resetTurn_block {s t : State} {turn : Turn} (hr : turn.resets = true) (h : takeTurn turn s = .next t) :
    t.block = Block.reset := by
  cases turn with
  | reset => cases h; rfl
  | startup => cases h; rfl
  | block => cases hr
  | present => cases hr
  | receive x => cases hr
  | display => cases hr
  | startTasks => cases hr

/-- At an idle FAULTED block no turn but a reset takes the waiting word from the port (R164). -/
theorem takeTurn_port_of_faulted {s t : State} {turn : Turn} {w : Word} (hf : s.block.fsm = .faulted)
    (hp : s.block.pend = []) (hr : turn.resets = false) (h : takeTurn turn s = .next t) (hw : s.host.port = some w) :
    t.host.port = some w := by
  by_cases hb : turn = .block
  · subst hb
    rw [takeTurn, blockTurn_of_faulted hp hf] at h
    cases h
    exact hw
  · exact hostTurn_port hb hr h hw

/-- An idle FAULTED block changes at most its FB, a reset apart: it has no event to perform and accepts no word (R164). -/
theorem step_block_of_faulted {s t : State} (hf : s.block.fsm = .faulted) (hp : s.block.pend = [])
    (h : step s = .next t) (hr : s.turn.resets = false) : t.block = { s.block with fb := t.block.fb } := by
  rcases step_block_cases h hr with hblock | ⟨-, e, rest, hbusy, -⟩ | ⟨-, -, hne, -⟩ | ⟨-, -, hne, -⟩
  · exact hblock
  · rw [hp] at hbusy
    cases hbusy
  · exact absurd hf hne
  · exact absurd hf hne

/-- Settles O8, by whether the turn that the step takes is a reset. -/
theorem onlyResetLeavesFaulted : Obligations.OnlyResetLeavesFaulted := by
  intro s t hf hp h
  obtain ⟨u, hu, rfl⟩ := mapNext_eq_next (step_eq_turn s ▸ h)
  refine ⟨fun hr => ⟨step_block_of_faulted hf hp h hr, fun w hw => ?held⟩, fun hr => ?reset⟩
  case held =>
    rw [settle_host]
    exact takeTurn_port_of_faulted (s := popTurn s) hf hp hr hu hw
  case reset =>
    rw [settle_block, resetTurn_block hr hu]
    rfl

end Sys2Proof.Proofs

/-! PROOFS. Reset, boot and hazards (70_reset_and_hazards.md): the old row until the blanking, the boot order into a run of the
display task, and what an idle block and a reset do at a step. -/

namespace Sys2Proof.Proofs

open Sys2Proof.Machine Sys2Proof.Laws

/-! ### The banks until the latch pulse -/

/-- Without a transition of LAT no bank is loaded (R24). -/
theorem observe_banks_of_lat (edge : LatchEdge) {ls : Lines} {e : Event} (o : Observer)
    (h : (ls.perform e).get .lat = ls.get .lat) :
    (o.observe edge ls e).out0 = o.out0 ∧ (o.observe edge ls e).out1 = o.out1 := by
  cases e with
  | delay ms => exact ⟨rfl, rfl⟩
  | set l v =>
    cases l with
    | lat =>
      have hv : v = ls.lat := (lines_get_set_same ls .lat v).symm.trans h
      simp [Observer.observe, hv]
    | sck => cases v <;> cases hs : ls.sck <;> simp [Observer.observe, hs]
    | rst => cases v <;> cases hs : ls.rst <;> simp [Observer.observe, hs]
    | sda => exact ⟨rfl, rfl⟩
    | sb => exact ⟨rfl, rfl⟩
    | row r => exact ⟨rfl, rfl⟩

/-- An event that writes a line to the level it has, or writes another line, leaves its level (R11). -/
theorem get_perform_of_rewrite {ls : Lines} {e : Event} {l : Line} (h : ∀ v, e = .set l v → v = ls.get l) :
    (ls.perform e).get l = ls.get l := by
  by_contra hne
  obtain ⟨v, rfl⟩ := event_of_get_perform_ne hne
  exact hne ((lines_get_set_same ls l v).trans (h v rfl))

/-- Events that write LAT only to the level it has load no bank (R24). -/
theorem observeAll_banks_of_lat (edge : LatchEdge) {es : List Event} {ls : Lines} (o : Observer)
    (h : ∀ v, Event.set .lat v ∈ es → v = ls.get .lat) :
    (o.observeAll edge ls es).out0 = o.out0 ∧ (o.observeAll edge ls es).out1 = o.out1 := by
  induction es generalizing ls o with
  | nil => exact ⟨rfl, rfl⟩
  | cons e es ih =>
    have hlat : (ls.perform e).get .lat = ls.get .lat :=
      get_perform_of_rewrite fun v hv => h v (hv ▸ List.mem_cons_self)
    obtain ⟨hhead0, hhead1⟩ := observe_banks_of_lat edge o hlat
    obtain ⟨htail0, htail1⟩ := ih (o.observe edge ls e) fun v hv => (h v (List.mem_cons_of_mem e hv)).trans hlat.symm
    exact ⟨htail0.trans hhead0, htail1.trans hhead1⟩

/-- The events of ROW_TRACE before its latch pulse (R108). -/
def rowShift (g : Byte → Byte) (r : Fin 8) (p : Vector Byte 24) : List Event :=
  sendBytes ((rowStream g p).take Config.deactAfterBytes) ++ [.set (.row (prevRow r)) false] ++
    sendBytes ((rowStream g p).drop Config.deactAfterBytes)

theorem length_rowShift (g : Byte → Byte) (r : Fin 8) (p : Vector Byte 24) : (rowShift g r p).length = 769 := by
  rw [rowShift, List.length_append, List.length_append, length_sendBytes_take_rowStream, length_sendBytes_drop_rowStream]
  rfl

theorem spares_rowShift_lat (g : Byte → Byte) (r : Fin 8) (p : Vector Byte 24) : Spares (rowShift g r p) .lat := by
  simp only [rowShift, spares_append]
  exact ⟨⟨spares_sendBytes (by decide) (by decide) _, by simp [Spares]⟩, spares_sendBytes (by decide) (by decide) _⟩

/-- ROW_TRACE, cut after the first write of its latch pulse, which is no transition where LAT is at 1 (R92, R108). -/
theorem rowEvents_eq_rowShift (g : Byte → Byte) (r : Fin 8) (p : Vector Byte 24) :
    rowEvents g r p = (rowShift g r p ++ [.set .lat true]) ++ [.set .lat false, .set .lat true, .set (.row r) true] := by
  simp only [rowEvents, rowShift, pulseLatch, List.append_assoc, List.cons_append, List.nil_append]

/-- The first 770 events of ROW_TRACE write LAT to 1 only (R108). -/
theorem lat_high_of_mem_take_rowEvents {g : Byte → Byte} {r : Fin 8} {p : Vector Byte 24} {n : Nat} (hn : n ≤ 770)
    {v : Bool} (h : Event.set .lat v ∈ (rowEvents g r p).take n) : v = true := by
  have hlen : n ≤ (rowShift g r p ++ [Event.set .lat true]).length := by
    rwa [List.length_append, length_rowShift]
  rw [rowEvents_eq_rowShift, List.take_append_of_le_length hlen] at h
  rcases List.mem_append.mp (List.mem_of_mem_take h) with hshift | hpulse
  · exact absurd hshift (spares_rowShift_lat g r p v)
  · simpa using hpulse

/-- What a row shows is decided by its row line and bank 1 (R26). -/
theorem shown_eq_of_rows_of_out1 {s u : State} (hrows : u.block.lines.rows = s.block.lines.rows)
    (hout1 : u.chip.out1 = s.chip.out1) (p c : Fin 8) (ch : Channel) : u.shown p c ch = s.shown p c ch := by
  simp only [State.shown, hrows, hout1]

/-- Settles O26: before its 771st event the trace makes no transition of LAT, and before its 289th it writes no row line. -/
theorem oldRowShownWhileShifting : Obligations.OldRowShownWhileShifting := by
  intro s r ht hp hf hrst hlat
  refine ⟨_, exec_sendRow_of_ready r hp hf, fun n hn => ?_⟩
  have hrun := runSteps_afterEvents n
    (s := startTrace (rowEvents Config.gamma r (s.block.fb.rowBytes r)) (.rowActive r) (takeWord s)) ht hrst
    (spares_rowEvents (.inr rfl) _ _ _) (rowEvents_ne_nil _ _ _) (hn.trans (by simp))
  obtain ⟨hout0, hout1⟩ := observeAll_banks_of_lat Config.latchEdge s.chip (ls := s.block.lines)
    (es := (rowEvents Config.gamma r (s.block.fb.rowBytes r)).take n)
    fun v hv => (lat_high_of_mem_take_rowEvents hn hv).trans hlat.symm
  refine ⟨_, hrun, hout0, hout1, fun h288 => shown_eq_of_rows_of_out1 ?_ hout1⟩
  exact (rows_performAll_take_rowEvents _ r _ s.block.lines n).trans (if_pos h288)

/-! ### The boot order -/

/-- A step whose turn heads the list is that turn, after which only the chip can still change (R27). -/
theorem exists_step_of_turns {s u : State} {turn : Turn} {ts : List Turn} (ht : s.turns = turn :: ts)
    (h : takeTurn turn (popTurn s) = .next u) :
    ∃ t, step s = .next t ∧ t.block = u.block ∧ t.host = u.host ∧ t.turns = u.turns := by
  have hturn : s.turn = turn := by simp [State.turn, ht]
  exact ⟨_, step_of_takeTurn (hturn ▸ h), settle_block _, settle_host _, settle_turns _⟩

/-- The startup's step leaves the block of R20, with INIT on the port and the display task dormant (R183 steps 2 and 3). -/
theorem exists_step_startup {s : State} {ts : List Turn} (ht : s.turns = .startup :: ts) :
    ∃ t, step s = .next t ∧ t.block = Block.reset ∧
      t.host = { s.host with port := some (encode .init), phase := .dormant } ∧ t.turns = ts := by
  obtain ⟨t, hstep, hblock, hhost, hturns⟩ := exists_step_of_turns ht rfl
  exact ⟨t, hstep, hblock, hhost, hturns.trans (congrArg List.tail ht)⟩

/-- The block's step at UNINIT with INIT on the port starts INIT's trace (R100, R105). -/
theorem exists_step_init {s : State} {ts : List Turn} (ht : s.turns = .block :: ts) (hp : s.block.pend = [])
    (hu : s.block.fsm = .uninit) (hw : s.host.port = some (encode .init)) :
    ∃ t, step s = .next t ∧ t.block = { s.block with pend := initTrace, post := .bankInit } ∧
      t.host = { s.host with port := none } ∧ t.turns = ts := by
  have hturn : takeTurn .block (popTurn s) = .next (startTrace initTrace .bankInit (takeWord (popTurn s))) := by
    rw [takeTurn, blockTurn_of_decoded (s := popTurn s) hp hw (decode_encode rfl), exec_init_of_uninit (s := popTurn s) hp hu]
  obtain ⟨t, hstep, hblock, hhost, hturns⟩ := exists_step_of_turns ht hturn
  exact ⟨t, hstep, hblock, hhost, hturns.trans (congrArg List.tail ht)⟩

/-- The start of the tasks sets IDX, DL, the phase and CURSOR, and leaves the block alone (R183 step 4). -/
theorem exists_step_startTasks {s : State} {ts : List Turn} (ht : s.turns = .startTasks :: ts) :
    ∃ t, step s = .next t ∧ t.block = s.block ∧
      t.host = { s.host with idx := 0, dl := Config.t0, phase := .dormant, cursor := 0 } ∧ t.turns = ts := by
  obtain ⟨t, hstep, hblock, hhost, hturns⟩ := exists_step_of_turns ht rfl
  exact ⟨t, hstep, hblock, hhost, hturns.trans (congrArg List.tail ht)⟩

/-- With INIT's trace pending at the reset levels, no word on the port and the task dormant, a run of the task begins: INIT
lights no row, and any row may be sent first after it (R110, R113). -/
theorem taskRun_of_initTrace {s : State} (hturns : ∀ t ∈ s.turns, Turn.ofTaskRun t) (hcursor : s.host.cursor = 0)
    (hphase : s.host.phase = .dormant) (hport : s.host.port = none)
    (hblock : s.block = { Block.reset with pend := initTrace, post := .bankInit }) : TaskRun s := by
  obtain ⟨hone, hlast⟩ := init_in_cycle (ls := Lines.reset) rfl
  have hfinal : s.block.finalFsm = .bankInit := by
    rw [hblock]
    exact finalFsm_of_busy initTrace_ne_nil
  exact {
    turns := hturns
    cursor := by rw [hcursor]; decide
    task := by
      rw [hfinal]
      simp only [taskInOrder, hphase, hport, followsCyclic]
    oneRow := by rw [hblock]; exact hone
    final := by
      rw [hfinal, hblock]
      exact hlast }

/-- Settles O42: the three steps one after another, of which the startup's forgets the state before it. -/
theorem bootLeadsToTaskRun : Obligations.BootLeadsToTaskRun := by
  intro s ts ht hts
  obtain ⟨s₁, hstep₁, hblock₁, hhost₁, hturns₁⟩ := exists_step_startup ht
  obtain ⟨s₂, hstep₂, hblock₂, hhost₂, hturns₂⟩ :=
    exists_step_init hturns₁ (by rw [hblock₁]; rfl) (by rw [hblock₁]; rfl) (by rw [hhost₁])
  obtain ⟨t, hstep₃, hblock₃, hhost₃, hturns₃⟩ := exists_step_startTasks hturns₂
  have hblock : t.block = { Block.reset with pend := initTrace, post := .bankInit } := by
    rw [hblock₃, hblock₂, hblock₁]
  have hport : t.host.port = none := by rw [hhost₃, hhost₂]
  have hrun : TaskRun t :=
    taskRun_of_initTrace (hturns₃ ▸ hts) (by rw [hhost₃]) (by rw [hhost₃]) hport hblock
  exact ⟨t, by simp only [runSteps, hstep₁, hstep₂, hstep₃], hrun, by rw [hblock], by rw [hblock], by rw [hhost₃],
    by rw [hhost₃], by rw [hhost₃], hport⟩

/-! ### Reset from any state, and the idle block -/

/-- A reset of an idle block empties SR (R22). -/
theorem resetBlock_sr_of_idle {s : State} (hp : s.block.pend = []) : (resetBlock s).chip.sr = [] := by
  simp [Observer.afterReset, Block.idle, hp]

/-- Settles O47: the reset turn does not look at the state it finds, but for whether SR is any value after it. -/
theorem resetFromAnywhere : Obligations.ResetFromAnywhere := by
  intro s ht
  have hturn : takeTurn s.turn (popTurn s) = .next (resetBlock (popTurn s)) := by rw [ht, takeTurn]
  exact ⟨_, step_of_takeTurn hturn, settle_block _, settle_host _, settle_turns _,
    fun hp => (settle_sr _).trans (resetBlock_sr_of_idle (s := popTurn s) hp)⟩

/-- Settles O48: the block's turn is the state itself, and the chip's settling touches neither block nor host. -/
theorem idleBlockWaits : Obligations.IdleBlockWaits := by
  intro s ht hp hw
  exact ⟨_, step_of_blockTurn ht (blockTurn_of_no_word (s := popTurn s) hp hw), settle_block _, settle_host _⟩

end Sys2Proof.Proofs
